-- ==== Sys2Proof/Word.lean ====
section
/-! DEFINITION. The two sizes of value the block handles: bytes of BUF and 32-bit register values (00_scope.md R6, R7). -/

namespace Sys2Proof

/-- A register value: 32 bits, unsigned, bit 0 least significant (R6). -/
abbrev Word := BitVec 32

/-- A byte of BUF (R7). -/
abbrev Byte := BitVec 8

end Sys2Proof
end

