-- ==== Sys2Proof/Config.lean ====
section
/-! DEFINITION. The implementation parameters of 00_scope.md R5, and the one free value of the model.

The parameters are plain data carried by the state and changed by no step, so that a theorem about every state is a theorem
about every implementation (log entry 1). -/

namespace Sys2Proof

/-- The open parameters of R5: BUF_LOG2 (five bits, the field CFG shows, R37), REG_BASE and BUF_BASE. -/
structure Params where
  bufLog2 : BitVec 5
  regBase : Nat
  bufBase : Nat
deriving DecidableEq, Repr

/-- BUF_SIZE = 2^BUF_LOG2 (R5). -/
def Params.bufSize (p : Params) : Nat := 2 ^ p.bufLog2.toNat

/-- R5 bounds BUF_LOG2 below by 4 (its width bounds it by 31), and R70 keeps the two apertures apart. -/
def Params.wf (p : Params) : Bool :=
  decide (4 ≤ p.bufLog2.toNat) &&
    (decide (p.regBase + 64 ≤ p.bufBase) || decide (p.bufBase + p.bufSize ≤ p.regBase))

/-- The byte a host read of a pending SER's destination returns (R84, R216, entry I1 of 93_implementation_defined.md): a free
value, different or equal from draw to draw as nothing says. The argument counts the draws (log entry 9). -/
opaque Config.freeByte : Nat → Byte

end Sys2Proof
end

