-- ==== Sys2Proof/Syntax.lean ====
section
/-! DEFINITION. The registers, the host transactions, and the one type of instructions: a constructor for each row of
spec/opcode_table.json. -/

namespace Sys2Proof

/-- The sixteen registers of the REG aperture, in the order of R105. -/
inductive Reg where
  | ctrl | status | ier | src | dst | len | typeCode | crcState
  | crcResult | flags | resLen | resType | resCrc | resData | resSize | cfg
deriving DecidableEq, Repr

/-- The five operand registers of R215. -/
inductive OperandReg where
  | src | dst | len | typeCode | crcState
deriving DecidableEq, Repr

/-- The two address spaces of R70. -/
inductive Space where
  | reg | buf
deriving DecidableEq, Repr

/-- The access sizes of R106: 1, 2 or 4 bytes. -/
inductive Size where
  | one | two | four
deriving DecidableEq, Repr

/-- Kind, size and write data of R106. Write data is below 2^(8*size), so its width is its size (log entry 17). -/
inductive Access where
  | read (size : Size)
  | write1 (w : BitVec 8)
  | write2 (w : BitVec 16)
  | write4 (w : BitVec 32)
deriving DecidableEq, Repr

/-- The size of a transaction, whatever its kind. -/
def Access.size : Access → Size
  | .read n => n
  | .write1 _ => .one
  | .write2 _ => .two
  | .write4 _ => .four

/-- The host transaction tuple of R106. -/
structure Transaction where
  space : Space
  offset : Nat
  access : Access
deriving DecidableEq, Repr

/-- What the host port carries: an address on the host's bus instead of a space and an offset (R20, R70). -/
structure Request where
  addr : Nat
  access : Access
deriving DecidableEq, Repr

/-- The opcode table's rows. The first four are words of CTRL (R100 to R103), performed at a completion; the others are host
transactions (R106). -/
inductive Instr where
  /-- CRC, R165. -/
  | crc (init : Bool)
  /-- SER, R183. INIT is ignored, and kept so that no bit of the word is lost. -/
  | ser (init : Bool)
  /-- PARSE, R184. INIT is ignored, and kept so that no bit of the word is lost. -/
  | parse (init : Bool)
  /-- ILLEGAL, R144: any other CTRL word. -/
  | illegal (word : Word)
  /-- RD, R210. -/
  | rd (r : Reg)
  /-- WR, R211: the dispatch by register. The decoder gives the more exact rows below where one applies (log entry 11). -/
  | wr (r : Reg) (v : Word)
  /-- WR CTRL, R212. -/
  | wrCtrl (v : Word)
  /-- WR STATUS, R213. -/
  | wrStatus (v : Word)
  /-- WR IER, R214. -/
  | wrIer (v : Word)
  /-- WR SRC|DST|LEN|TYPE|CRC_STATE, R215. -/
  | wrOperand (r : OperandReg) (v : Word)
  /-- RB, R216. -/
  | rb (a : Nat)
  /-- WB, R217. -/
  | wb (a : Nat) (w : Byte)
  /-- A bus error, R219: any other tuple. -/
  | busError (t : Transaction)
deriving DecidableEq, Repr

/-- The two formats of the opcode table: a CTRL word, or a host transaction. -/
inductive Encoded where
  | command (w : Word)
  | transaction (t : Transaction)
deriving DecidableEq, Repr

/-- Whether an instruction is a command, that is, performed by the engine. -/
def Instr.isCommand : Instr → Bool
  | .crc _ | .ser _ | .parse _ | .illegal _ => true
  | .rd _ | .wr _ _ | .wrCtrl _ | .wrStatus _ | .wrIer _ | .wrOperand _ _ | .rb _ | .wb _ _ | .busError _ => false

/-- Whether an encoding is a CTRL word. -/
def Encoded.isCommand : Encoded → Bool
  | .command _ => true
  | .transaction _ => false

end Sys2Proof
end

