-- ==== Sys2Proof/WellFormed.lean ====
section
/-! DEFINITION. Which terms of Instr an encoding exists for. The meanings are total and do not need it; the round trip of
Decode.lean is stated for well-formed terms. -/

namespace Sys2Proof

/-- The six legal CTRL words, as R103 lists them. -/
def legalWords : List Word := [0x01, 0x11, 0x02, 0x12, 0x03, 0x13]

/-- The legal tuples of R106: a whole register of REG, or one byte of BUF. -/
def Transaction.legal (p : Params) (t : Transaction) : Bool :=
  match t.space with
  | .reg => decide (t.access.size = .four) && decide (t.offset % 4 = 0) && decide (t.offset < 64)
  | .buf => decide (t.access.size = .one) && decide (t.offset < p.bufSize)

/-- The registers a write is ignored by (R211). -/
def Reg.readOnly : Reg → Bool
  | .crcResult | .flags | .resLen | .resType | .resCrc | .resData | .resSize | .cfg => true
  | .ctrl | .status | .ier | .src | .dst | .len | .typeCode | .crcState => false

/-- Well-formed terms. The plain row WR keeps only the registers no more exact row covers (log entry 11); BUF addresses lie in
BUF (R106); an illegal word is none of the six legal ones (R103); a bus error is no legal tuple (R106). -/
def Instr.wf (p : Params) : Instr → Bool
  | .crc _ | .ser _ | .parse _ => true
  | .illegal w => decide (w ∉ legalWords)
  | .rd _ => true
  | .wr r _ => r.readOnly
  | .wrCtrl _ | .wrStatus _ | .wrIer _ | .wrOperand _ _ => true
  | .rb a => decide (a < p.bufSize)
  | .wb a _ => decide (a < p.bufSize)
  | .busError t => !t.legal p

end Sys2Proof
end

