-- ==== Sys2Proof/Decode.lean ====
section
/-! DEFINITION. The decoder and, after it, the encoder. Every 32-bit word and every tuple decodes (R103, R106); only a bus
address outside both apertures is rejected, by name (R70). -/

namespace Sys2Proof

/-- The offset of a register in the REG aperture (R105). -/
def Reg.offset : Reg → Nat
  | .ctrl => 0x00 | .status => 0x04 | .ier => 0x08 | .src => 0x0C
  | .dst => 0x10 | .len => 0x14 | .typeCode => 0x18 | .crcState => 0x1C
  | .crcResult => 0x20 | .flags => 0x24 | .resLen => 0x28 | .resType => 0x2C
  | .resCrc => 0x30 | .resData => 0x34 | .resSize => 0x38 | .cfg => 0x3C

/-- The register at an offset of the REG aperture; none at an offset that is not a multiple of 4 or lies past 0x3C (R105). -/
def Reg.ofOffset : Nat → Option Reg
  | 0x00 => some .ctrl | 0x04 => some .status | 0x08 => some .ier | 0x0C => some .src
  | 0x10 => some .dst | 0x14 => some .len | 0x18 => some .typeCode | 0x1C => some .crcState
  | 0x20 => some .crcResult | 0x24 => some .flags | 0x28 => some .resLen | 0x2C => some .resType
  | 0x30 => some .resCrc | 0x34 => some .resData | 0x38 => some .resSize | 0x3C => some .cfg
  | _ => none

/-- The operand register as a register of the map. -/
def OperandReg.reg : OperandReg → Reg
  | .src => .src | .dst => .dst | .len => .len | .typeCode => .typeCode | .crcState => .crcState

/-- A CTRL word (R100, R101, R103): OP in [3:0], INIT in [4], and [31:5] all zero, or it is illegal. -/
def decodeCtrl (v : Word) : Instr :=
  let op := v.extractLsb' 0 4
  let init := v.getLsbD 4
  if v.extractLsb' 5 27 ≠ 0 then .illegal v
  else if op = 1 then .crc init
  else if op = 2 then .ser init
  else if op = 3 then .parse init
  else .illegal v

/-- A register write, by the dispatch of R211; a register no other row names is the plain row. -/
def decodeRegWrite (r : Reg) (v : Word) : Instr :=
  match r with
  | .ctrl => .wrCtrl v
  | .status => .wrStatus v
  | .ier => .wrIer v
  | .src => .wrOperand .src v
  | .dst => .wrOperand .dst v
  | .len => .wrOperand .len v
  | .typeCode => .wrOperand .typeCode v
  | .crcState => .wrOperand .crcState v
  | .crcResult | .flags | .resLen | .resType | .resCrc | .resData | .resSize | .cfg => .wr r v

/-- A host transaction (R106): a legal tuple is its row, "every other tuple is answered ERROR" (log entry 10). -/
def decodeTransaction (p : Params) (t : Transaction) : Instr :=
  match t.space, t.access with
  | .reg, .read .four =>
    match Reg.ofOffset t.offset with
    | some r => .rd r
    | none => .busError t
  | .reg, .write4 v =>
    match Reg.ofOffset t.offset with
    | some r => decodeRegWrite r v
    | none => .busError t
  | .buf, .read .one => if t.offset < p.bufSize then .rb t.offset else .busError t
  | .buf, .write1 w => if t.offset < p.bufSize then .wb t.offset w else .busError t
  | .reg, .read .one | .reg, .read .two | .reg, .write1 _ | .reg, .write2 _
  | .buf, .read .two | .buf, .read .four | .buf, .write2 _ | .buf, .write4 _ => .busError t

/-- The decoder: total on both formats. -/
def decode (p : Params) : Encoded → Instr
  | .command w => decodeCtrl w
  | .transaction t => decodeTransaction p t

/-- Why a bus request does not reach the block. -/
inductive Reject where
  /-- The address lies in neither aperture (R70). Safe: the block is not involved, and its state does not change. -/
  | outsideApertures (addr : Nat)
deriving DecidableEq, Repr

/-- The aperture a bus address selects, and the offset in it (R70). -/
def select (p : Params) (addr : Nat) : Option (Space × Nat) :=
  if p.regBase ≤ addr ∧ addr < p.regBase + 64 then some (.reg, addr - p.regBase)
  else if p.bufBase ≤ addr ∧ addr < p.bufBase + p.bufSize then some (.buf, addr - p.bufBase)
  else none

/-- A bus request: select the aperture, then decode the tuple. -/
def decodeRequest (p : Params) (r : Request) : Except Reject Instr :=
  match select p r.addr with
  | some (space, offset) => .ok (decode p (.transaction ⟨space, offset, r.access⟩))
  | none => .error (.outsideApertures r.addr)

/-- The bits of an opcode-table row are those of the CTRL word. Only the CTRL rows have bits in the table (log entry 19). -/
def decodeTableWord (nbits w : Nat) : Option Instr :=
  if nbits ≤ 32 then some (decodeCtrl (BitVec.ofNat 32 (w % 2 ^ nbits))) else none

/-- A command word from its fields (R100): RSVD, INIT, OP. -/
def commandWord (init : Bool) (op : BitVec 4) : Word := 0#27 ++ BitVec.ofBool init ++ op

/-- A register write as a tuple. -/
def regWrite (r : Reg) (v : Word) : Encoded := .transaction ⟨.reg, r.offset, .write4 v⟩

/-- The encoder, from R101 (OP values), R105 (offsets) and R106 (tuples). -/
def encode : Instr → Encoded
  | .crc init => .command (commandWord init 1)
  | .ser init => .command (commandWord init 2)
  | .parse init => .command (commandWord init 3)
  | .illegal w => .command w
  | .rd r => .transaction ⟨.reg, r.offset, .read .four⟩
  | .wr r v => regWrite r v
  | .wrCtrl v => regWrite .ctrl v
  | .wrStatus v => regWrite .status v
  | .wrIer v => regWrite .ier v
  | .wrOperand r v => regWrite r.reg v
  | .rb a => .transaction ⟨.buf, a, .read .one⟩
  | .wb a w => .transaction ⟨.buf, a, .write1 w⟩
  | .busError t => .transaction t

/-- The bus address of a tuple (R70), the other way from `select`. -/
def Transaction.request (p : Params) (t : Transaction) : Request :=
  match t.space with
  | .reg => ⟨p.regBase + t.offset, t.access⟩
  | .buf => ⟨p.bufBase + t.offset, t.access⟩

end Sys2Proof
end

