-- ==== Sys2Proof/Machine/State.lean ====
section
/-! DEFINITION. Everything the spec gives the machine, as plain data, and the state after reset. -/

namespace Sys2Proof.Machine

/-- The engine phase (R21). STATUS.BUSY reads 1 exactly in `busy`, so it is stored here only (log entry 12). -/
inductive Phase where
  | idle | busy
deriving DecidableEq, Repr

/-- The error codes of R111. Codes 7 to 15 are never produced, so they have no constructor. -/
inductive ErrCode where
  | ok | illegalCmd | range | overlap | invalidType | truncated | crcMismatch
deriving DecidableEq, Repr

/-- The fields of STATUS but BUSY (R23). Its reserved bits read as 0 and are not stored. -/
structure Status where
  done : Bool
  err : Bool
  ovr : Bool
  errCode : ErrCode
deriving DecidableEq, Repr

/-- The fields of IER (R24). Its reserved bits read as 0 and are not stored. -/
structure Ier where
  doneIe : Bool
  errIe : Bool
  ovrIe : Bool
deriving DecidableEq, Repr

/-- BUF and its written-mask (R38, R41): the written bytes, by strictly rising address. An address with no entry is unwritten;
there is no byte value it reads as (R303, log entry 6). -/
abbrev Memory := List Host.Cell

/-- What the host target port last answered (R20, R106): response, and read data where there is any (log entry 5). -/
inductive Answer where
  /-- No transaction has been answered since reset. -/
  | none
  /-- OKAY, to a write. -/
  | okay
  /-- OKAY, with the data of a register read. -/
  | okayWord (v : Word)
  /-- OKAY, with the data of a BUF read. -/
  | okayByte (b : Byte)
  /-- ERROR, with no data (R219). -/
  | error
deriving DecidableEq, Repr

/-- One event of the block's total order (R11, R82). -/
inductive Event where
  /-- A request of the host arrives on the bus. -/
  | host (r : Request)
  /-- The scheduler gives the engine its turn (R142, R145). -/
  | engine
  /-- `rst` is asserted and released (R300). -/
  | reset
deriving DecidableEq, Repr

/-- The machine. Every field but the last three is the spec's. -/
structure State where
  /-- BUF_LOG2, REG_BASE, BUF_BASE (R5): constant. -/
  params : Params
  /-- R21. -/
  phase : Phase
  /-- R22: the last accepted word, legal or not; while busy, the pending command. -/
  ctrl : Word
  /-- R23. -/
  status : Status
  /-- R24. -/
  ier : Ier
  /-- R25. -/
  src : Word
  /-- R26. -/
  dst : Word
  /-- R27. -/
  len : Word
  /-- R28. -/
  typeCode : Word
  /-- R29. -/
  crcState : Word
  /-- R32. -/
  resLen : Word
  /-- R33. -/
  resType : Word
  /-- R34. -/
  resCrc : Word
  /-- R35. -/
  resData : Word
  /-- R36. -/
  resSize : Word
  /-- R38, R41. -/
  buf : Memory
  /-- The host port's outputs (R20). -/
  answer : Answer
  /-- The inputs still to come, first one first, with the engine's turns among them (R82, log entry 2). -/
  events : List Event
  /-- The model's own: how many free bytes were drawn (log entry 9). -/
  freeCount : Nat
deriving DecidableEq, Repr

/-- Why the model stops. -/
inductive Fault where
  /-- A byte of BUF that nothing has written since reset is read: by RB, by CRC's window, by SER's payload, or by PARSE for the
  bytes it looks at (R303, entries I2 and I3 of 93_implementation_defined.md). Safe: the hardware reads some byte. -/
  | unwrittenByte (addr : Nat)
deriving DecidableEq, Repr

/-- Why the model has no meaning for an instruction. -/
inductive Refusal where
  /-- Raised by no arm of exec: every instruction has a meaning. Safe: the model would stop. -/
  | notModelled (mnemonic : String)
deriving DecidableEq, Repr

/-- The state after reset (R301), for one choice of the open parameters (log entry 1) and with no input waiting (log entry 2). -/
def State.reset : State where
  params := { bufLog2 := 8, regBase := 0, bufBase := 0x100 }
  phase := .idle
  ctrl := 0
  status := { done := false, err := false, ovr := false, errCode := .ok }
  ier := { doneIe := false, errIe := false, ovrIe := false }
  src := 0
  dst := 0
  len := 0
  typeCode := 0
  crcState := 0xFFFFFFFF
  resLen := 0
  resType := 0
  resCrc := 0
  resData := 0
  resSize := 0
  buf := []
  answer := .none
  events := []
  freeCount := 0

end Sys2Proof.Machine
end

