-- ==== Sys2Proof/Machine/Flags.lean ====
section
/-! DEFINITION. Everything combinational: the type-code checker and FLAGS, the words STATUS, IER, CRC_RESULT and CFG read as,
and the interrupt line. -/

namespace Sys2Proof.Machine

/-- A type code as its four bytes in wire order (41_type_code.md). -/
structure TypeCode where
  t0 : Byte
  t1 : Byte
  t2 : Byte
  t3 : Byte
deriving DecidableEq, Repr

/-- The four bytes of a register (R28): byte 0 in [31:24]. -/
def unpack (r : Word) : TypeCode where
  t0 := r.extractLsb' 24 8
  t1 := r.extractLsb' 16 8
  t2 := r.extractLsb' 8 8
  t3 := r.extractLsb' 0 8

/-- The register value of four bytes (43_framer.md), the other way from `unpack`. -/
def TypeCode.pack (t : TypeCode) : Word := t.t0 ++ t.t1 ++ t.t2 ++ t.t3

/-- The bytes on the wire. -/
def TypeCode.bytes (t : TypeCode) : List Byte := [t.t0, t.t1, t.t2, t.t3]

/-- `alpha` (R150): an ASCII letter. -/
def isLetter (b : Byte) : Bool :=
  decide (0x41 ≤ b.toNat ∧ b.toNat ≤ 0x5A) || decide (0x61 ≤ b.toNat ∧ b.toNat ≤ 0x7A)

/-- `ALPHA` (R151). -/
def TypeCode.alpha (t : TypeCode) : Bool := isLetter t.t0 && isLetter t.t1 && isLetter t.t2 && isLetter t.t3

/-- `CRITICAL` (R152): byte 0 uppercase. -/
def TypeCode.critical (t : TypeCode) : Bool := t.alpha && !t.t0.getLsbD 5

/-- `PUBLIC` (R153): byte 1 uppercase. -/
def TypeCode.isPublic (t : TypeCode) : Bool := t.alpha && !t.t1.getLsbD 5

/-- `RESERVED_VALID` (R154): byte 2 uppercase. -/
def TypeCode.reservedValid (t : TypeCode) : Bool := t.alpha && !t.t2.getLsbD 5

/-- `SAFE_TO_COPY` (R155): byte 3 lowercase. -/
def TypeCode.safeToCopy (t : TypeCode) : Bool := t.alpha && t.t3.getLsbD 5

/-- `VALID` (R156). -/
def TypeCode.valid (t : TypeCode) : Bool := t.alpha && t.reservedValid

/-- The six flags of one type code, ALPHA in bit 0 (R31). -/
def TypeCode.flagBits (t : TypeCode) : BitVec 6 :=
  BitVec.ofBool t.valid ++ BitVec.ofBool t.safeToCopy ++ BitVec.ofBool t.reservedValid ++
    BitVec.ofBool t.isPublic ++ BitVec.ofBool t.critical ++ BitVec.ofBool t.alpha

/-- The register FLAGS (R31): TYPE in [5:0], RES_TYPE in [13:8]. -/
def State.flagsWord (s : State) : Word :=
  0#18 ++ (unpack s.resType).flagBits ++ 0#2 ++ (unpack s.typeCode).flagBits

/-- The number of an error code (R111). -/
def ErrCode.toNibble : ErrCode → BitVec 4
  | .ok => 0 | .illegalCmd => 1 | .range => 2 | .overlap => 3
  | .invalidType => 4 | .truncated => 5 | .crcMismatch => 6

/-- Whether the engine holds a pending command: STATUS.BUSY (R21). -/
def State.busy (s : State) : Bool :=
  match s.phase with
  | .idle => false
  | .busy => true

/-- The register STATUS (R23). -/
def State.statusWord (s : State) : Word :=
  0#20 ++ s.status.errCode.toNibble ++ 0#4 ++ BitVec.ofBool s.status.ovr ++ BitVec.ofBool s.status.err ++
    BitVec.ofBool s.status.done ++ BitVec.ofBool s.busy

/-- The register IER (R24). -/
def State.ierWord (s : State) : Word :=
  0#29 ++ BitVec.ofBool s.ier.ovrIe ++ BitVec.ofBool s.ier.errIe ++ BitVec.ofBool s.ier.doneIe

/-- The register CRC_RESULT (R30). -/
def State.crcResult (s : State) : Word := s.crcState ^^^ 0xFFFFFFFF

/-- The register CFG (R37). -/
def State.cfgWord (s : State) : Word := 0#27 ++ s.params.bufLog2

/-- The interrupt output (R39, R266). -/
def State.irq (s : State) : Bool :=
  (s.status.done && s.ier.doneIe) || (s.status.err && s.ier.errIe) || (s.status.ovr && s.ier.ovrIe)

/-- What a completion with code `c` leaves in the fields of STATUS (R142): DONE set, ERRCODE replaced, ERR set by a failure and
kept by a success. -/
def Status.completed (st : Status) (c : ErrCode) : Status :=
  { st with done := true, err := st.err || decide (c ≠ .ok), errCode := c }

/-- What a write of `v` to STATUS leaves (R213): a 1 in bit 1, 2 or 3 clears DONE, ERR or OVR. -/
def Status.cleared (st : Status) (v : Word) : Status :=
  { st with
    done := st.done && !v.getLsbD 1
    err := st.err && !v.getLsbD 2
    ovr := st.ovr && !v.getLsbD 3 }

/-- What a write of `v` to IER leaves (R214). -/
def Ier.ofWord (v : Word) : Ier where
  doneIe := v.getLsbD 0
  errIe := v.getLsbD 1
  ovrIe := v.getLsbD 2

end Sys2Proof.Machine
end

