-- ==== Sys2Proof/Machine/Operands.lean ====
section
/-! DEFINITION. The operands of the commands: byte order, address masking, windows and their checks on exact integers. -/

namespace Sys2Proof.Machine

/-- `be32` (R7). -/
def be32 (v : Word) : List Byte := [v.extractLsb' 24 8, v.extractLsb' 16 8, v.extractLsb' 8 8, v.extractLsb' 0 8]

/-- `unbe32` (R7) of four bytes, most significant first. -/
def unbe32 (b0 b1 b2 b3 : Byte) : Word := b0 ++ b1 ++ b2 ++ b3

/-- BUF_SIZE of the machine. -/
def State.bufSize (s : State) : Nat := s.params.bufSize

/-- The value SRC or DST takes from a write (R25, R215): the low ADDR_W = BUF_LOG2 bits. -/
def maskAddr (p : Params) (v : Word) : Word := (v.setWidth p.bufLog2.toNat).setWidth 32

/-- A window of `n` bytes at `a` ends at or before BUF_SIZE (R77). -/
def State.inRange (s : State) (a n : Nat) : Bool := decide (a + n ≤ s.bufSize)

/-- SER's payload window at `a` meets its frame window at `d`, and is not in place (R183, R261). The frame is 12 + `l` bytes (R108). -/
def overlaps (a l d : Nat) : Bool := decide (0 < l ∧ a < d + (12 + l) ∧ d < a + l ∧ a ≠ d + 8)

/-- `x` is an address of the frame window of a SER with the state's operands (R84, R183). -/
def State.inSerWindow (s : State) (x : Nat) : Bool :=
  decide (s.dst.toNat ≤ x ∧ x < s.dst.toNat + (12 + s.len.toNat))

/-- Whether an instruction is a SER. -/
def isSer : Instr → Bool
  | .ser _ => true
  | .crc _ | .parse _ | .illegal _ | .rd _ | .wr _ _ | .wrCtrl _ | .wrStatus _ | .wrIer _ | .wrOperand _ _
  | .rb _ | .wb _ _ | .busError _ => false

/-- The pending command is a legal SER and may write the byte at `x` (R84, R216). -/
def State.pendingSerAt (s : State) (x : Nat) : Bool := s.busy && isSer (decodeCtrl s.ctrl) && s.inSerWindow x

end Sys2Proof.Machine
end

