-- ==== Sys2Proof/Machine/Ops.lean ====
section
/-! DEFINITION. The named operations over memory and registers that the meanings share: memory access, register access, the
completion of a command (the block's equivalent of taking an exception, R267) and the clearing of STATUS (its equivalent of a
return, R268), issue, drop, and reset. -/

namespace Sys2Proof.Machine

/-- The canonical form of BUF: addresses strictly rising. -/
abbrev Memory.wf (m : Memory) : Prop := m.Pairwise (fun x y => x.1 < y.1)

/-- Every written byte lies in BUF (R38). -/
def Memory.below (m : Memory) (size : Nat) : Bool := m.all (fun c => decide (c.1 < size))

/-- One byte of BUF, none where nothing has written it since reset (R41). -/
def Memory.read : Memory → Nat → Option Byte
  | [], _ => none
  | (k, b) :: m, a => if a = k then some b else Memory.read m a

/-- `BUF[a] <- w`. -/
def Memory.write : Memory → Nat → Byte → Memory
  | [], a, w => [(a, w)]
  | (k, b) :: m, a, w =>
    if a < k then (a, w) :: (k, b) :: m
    else if a = k then (a, w) :: m
    else (k, b) :: Memory.write m a w

/-- `MemRead(a, n)` (R8), or the lowest address in the window that nothing has written (R303). -/
def Memory.readBytes (m : Memory) (a : Nat) : Nat → Except Nat (List Byte)
  | 0 => .ok []
  | n + 1 =>
    match m.read a with
    | none => .error a
    | some b =>
      match Memory.readBytes m (a + 1) n with
      | .error x => .error x
      | .ok bs => .ok (b :: bs)

/-- `MemWrite(a, n, S)` (R8), with n the length of S. -/
def Memory.writeBytes (m : Memory) (a : Nat) : List Byte → Memory
  | [] => m
  | b :: bs => Memory.writeBytes (m.write a b) (a + 1) bs

/-- The value of a register (R210). -/
def State.readReg (s : State) : Reg → Word
  | .ctrl => s.ctrl
  | .status => s.statusWord
  | .ier => s.ierWord
  | .src => s.src
  | .dst => s.dst
  | .len => s.len
  | .typeCode => s.typeCode
  | .crcState => s.crcState
  | .crcResult => s.crcResult
  | .flags => s.flagsWord
  | .resLen => s.resLen
  | .resType => s.resType
  | .resCrc => s.resCrc
  | .resData => s.resData
  | .resSize => s.resSize
  | .cfg => s.cfgWord

/-- The store of an accepted operand write (R215): SRC and DST are masked. -/
def State.setOperand (s : State) (r : OperandReg) (v : Word) : State :=
  match r with
  | .src => { s with src := maskAddr s.params v }
  | .dst => { s with dst := maskAddr s.params v }
  | .len => { s with len := v }
  | .typeCode => { s with typeCode := v }
  | .crcState => { s with crcState := v }

/-- The port answers. -/
def State.answering (s : State) (a : Answer) : State := { s with answer := a }

/-- A write dropped while busy (R218): OVR is set, the answer is OKAY, nothing else changes. -/
def State.dropWrite (s : State) : State := { s with status := { s.status with ovr := true }, answer := .okay }

/-- Issue (R141): CTRL takes the word, legal or not; BUSY is set and DONE cleared. -/
def State.issue (s : State) (v : Word) : State :=
  { s with ctrl := v, phase := .busy, status := { s.status with done := false } }

/-- The end of a command with code `c` (R142): STATUS, and the phase. -/
def State.finish (s : State) (c : ErrCode) : State := { s with phase := .idle, status := s.status.completed c }

/-- A host write to CTRL (R212). -/
def State.writeCtrl (s : State) (v : Word) : State := if s.busy then s.dropWrite else (s.issue v).answering .okay

/-- A host write to STATUS (R213): performed at any time. -/
def State.writeStatus (s : State) (v : Word) : State := { s with status := s.status.cleared v, answer := .okay }

/-- A host write to IER (R214): performed at any time. -/
def State.writeIer (s : State) (v : Word) : State := { s with ier := Ier.ofWord v, answer := .okay }

/-- A host write to an operand register (R215). -/
def State.writeOperand (s : State) (r : OperandReg) (v : Word) : State :=
  if s.busy then s.dropWrite else (s.setOperand r v).answering .okay

/-- What the engine's computation of a command gives (R142). -/
inductive CmdOutcome where
  /-- The command reads a byte nothing has written (R303): the model stops. -/
  | stop (f : Fault)
  /-- `raise CmdError(c)`: no effects. -/
  | raise (c : ErrCode)
  /-- OK, with the command's effects applied. -/
  | effects (s : State)
deriving DecidableEq, Repr

/-- The completion step (R142, R143): effects only on OK, STATUS always, all at once. -/
def State.complete (s : State) : CmdOutcome → Host.Outcome State Fault Refusal
  | .stop f => .fault f
  | .raise c => .next (s.finish c)
  | .effects s' => .next (s'.finish .ok)

/-- Hardware reset (R300 to R303): every register at its reset value, every byte of BUF unwritten, a pending command gone. The
parameters, the inputs still to come and the count of free bytes are not the block's registers and stay (log entry 14). -/
def State.hardReset (s : State) : State :=
  { State.reset with params := s.params, events := s.events, freeCount := s.freeCount }

end Sys2Proof.Machine
end

