-- ==== Sys2Proof/Machine/Crc.lean ====
section
/-! DEFINITION. CRC-32/ISO-HDLC and the command CRC (42_crc.md). -/

namespace Sys2Proof.Machine

/-- One shift of the register (R161), with the reflected polynomial of R160. -/
def crcShift (c : Word) : Word := if c.getLsbD 0 then (c >>> 1) ^^^ 0xEDB88320 else c >>> 1

/-- `n` shifts. -/
def crcShifts : Nat → Word → Word
  | 0, c => c
  | n + 1, c => crcShifts n (crcShift c)

/-- `crc_upd` (R161): one byte, least significant bit first. -/
def crcUpd (c : Word) (b : Byte) : Word := crcShifts 8 (c ^^^ b.setWidth 32)

/-- `crc_raw` (R161): bytes in ascending order. -/
def crcRaw (seed : Word) (bytes : List Byte) : Word := bytes.foldl crcUpd seed

/-- `crc32` (R162). -/
def crc32 (bytes : List Byte) : Word := crcRaw 0xFFFFFFFF bytes ^^^ 0xFFFFFFFF

/-- The CRC state a CRC command starts from (R102). -/
def State.crcSeed (s : State) (init : Bool) : Word := if init then 0xFFFFFFFF else s.crcState

/-- `Exec_CRC` (R165). -/
def State.runCrc (s : State) (init : Bool) : CmdOutcome :=
  if !s.inRange s.src.toNat s.len.toNat then .raise .range
  else
    match s.buf.readBytes s.src.toNat s.len.toNat with
    | .error x => .stop (.unwrittenByte x)
    | .ok bytes => .effects { s with crcState := crcRaw (s.crcSeed init) bytes }

/-- CRC (R165). -/
def execCrc (init : Bool) (s : State) : Host.Outcome State Fault Refusal := s.complete (s.runCrc init)

end Sys2Proof.Machine
end

