-- ==== Sys2Proof/Machine/Engine.lean ====
section
/-! DEFINITION. The illegal command (40_command_engine.md R144). -/

namespace Sys2Proof.Machine

/-- ILLEGAL (R144): the completion reports ILLEGAL_CMD and does nothing else. The word stays in CTRL. -/
def execIllegal (_word : Word) (s : State) : Host.Outcome State Fault Refusal := s.complete (.raise .illegalCmd)

end Sys2Proof.Machine
end

