-- ==== Sys2Proof/Machine/Framer.lean ====
section
/-! DEFINITION. The chunk framer: the byte-level functions of 43_framer.md section 1 and the commands SER and PARSE. -/

namespace Sys2Proof.Machine

/-- `chunk_crc` (R180). -/
def chunkCrc (t : TypeCode) (data : List Byte) : Word := crc32 (t.bytes ++ data)

/-- `serialize_bytes` (R181). -/
def serializeBytes (t : TypeCode) (data : List Byte) : List Byte :=
  be32 (BitVec.ofNat 32 data.length) ++ t.bytes ++ data ++ be32 (chunkCrc t data)

/-- What a successful parse returns (R182): the length field, the type, the payload and the declared CRC. -/
structure Chunk where
  len : Word
  type : TypeCode
  data : List Byte
  crc : Word
deriving DecidableEq, Repr

/-- `parse_bytes` (R182). The payload and CRC are all present, |W| >= 12 + L, exactly when at least 4 bytes are left after the
first L bytes that follow the header. -/
def parseBytes : List Byte → Except ErrCode Chunk
  | l0 :: l1 :: l2 :: l3 :: t0 :: t1 :: t2 :: t3 :: rest =>
    let len := unbe32 l0 l1 l2 l3
    let type : TypeCode := ⟨t0, t1, t2, t3⟩
    if !type.alpha then .error .invalidType
    else
      match rest.drop len.toNat with
      | c0 :: c1 :: c2 :: c3 :: _ =>
        let data := rest.take len.toNat
        let crc := unbe32 c0 c1 c2 c3
        if crc = chunkCrc type data then .ok ⟨len, type, data, crc⟩ else .error .crcMismatch
      | _ => .error .truncated
  | _ => .error .truncated

/-- How many bytes `parse_bytes` looks at in a slice of `n` bytes that starts with `header` (R182, R184): the frame, or only the
header when that already decides the error. -/
def parseExtent (header : List Byte) (n : Nat) : Nat :=
  match header with
  | l0 :: l1 :: l2 :: l3 :: t0 :: t1 :: t2 :: t3 :: _ =>
    let size := 12 + (unbe32 l0 l1 l2 l3).toNat
    if (TypeCode.mk t0 t1 t2 t3).alpha ∧ size ≤ n then size else 8
  | _ => 0

/-- The bytes PARSE reads of its window: none of fewer than 8, else the header, and then the frame if the header lets the parse
go on. "The rest of the window is not read" (R184, log entry 7). -/
def Memory.readFrame (m : Memory) (b n : Nat) : Except Nat (List Byte) :=
  if n < 8 then .ok []
  else
    match m.readBytes b 8 with
    | .error x => .error x
    | .ok header => m.readBytes b (parseExtent header n)

/-- The result registers after a success (R183, R184): the frame at `d` with payload length `l`. -/
def State.setResults (s : State) (l type crc : Word) (d : Nat) : State :=
  { s with
    resLen := l
    resType := type
    resCrc := crc
    resData := BitVec.ofNat 32 (d + 8)
    resSize := BitVec.ofNat 32 (12 + l.toNat) }

/-- `Exec_SER` (R183). -/
def State.runSer (s : State) : CmdOutcome :=
  let t := unpack s.typeCode
  let a := s.src.toNat
  let l := s.len.toNat
  let d := s.dst.toNat
  if !s.inRange a l then .raise .range
  else if !s.inRange d (12 + l) then .raise .range
  else if overlaps a l d then .raise .overlap
  else if !t.alpha then .raise .invalidType
  else
    match s.buf.readBytes a l with
    | .error x => .stop (.unwrittenByte x)
    | .ok data =>
      .effects (({ s with buf := s.buf.writeBytes d (serializeBytes t data) } : State).setResults
        s.len s.typeCode (chunkCrc t data) d)

/-- `Exec_PARSE` (R184). -/
def State.runParse (s : State) : CmdOutcome :=
  let b := s.src.toNat
  let n := s.len.toNat
  if !s.inRange b n then .raise .range
  else
    match s.buf.readFrame b n with
    | .error x => .stop (.unwrittenByte x)
    | .ok bytes =>
      match parseBytes bytes with
      | .error c => .raise c
      | .ok chunk => .effects (s.setResults chunk.len chunk.type.pack chunk.crc b)

/-- SER (R183); INIT is ignored (R102). -/
def execSer (_init : Bool) (s : State) : Host.Outcome State Fault Refusal := s.complete s.runSer

/-- PARSE (R184); INIT is ignored (R102). -/
def execParse (_init : Bool) (s : State) : Host.Outcome State Fault Refusal := s.complete s.runParse

end Sys2Proof.Machine
end

