-- ==== Sys2Proof/Machine/HostBus.lean ====
section
/-! DEFINITION. The host transactions (44_host_bus.md). -/

namespace Sys2Proof.Machine

/-- RD (R210): the value of the register, with no side effect, at any time. -/
def execRd (r : Reg) (s : State) : Host.Outcome State Fault Refusal := .next (s.answering (.okayWord (s.readReg r)))

/-- WR (R211): the dispatch by register. A write to a read-only register is answered OKAY and ignored. -/
def execWr (r : Reg) (v : Word) (s : State) : Host.Outcome State Fault Refusal :=
  match r with
  | .ctrl => .next (s.writeCtrl v)
  | .status => .next (s.writeStatus v)
  | .ier => .next (s.writeIer v)
  | .src => .next (s.writeOperand .src v)
  | .dst => .next (s.writeOperand .dst v)
  | .len => .next (s.writeOperand .len v)
  | .typeCode => .next (s.writeOperand .typeCode v)
  | .crcState => .next (s.writeOperand .crcState v)
  | .crcResult | .flags | .resLen | .resType | .resCrc | .resData | .resSize | .cfg => .next (s.answering .okay)

/-- WR CTRL (R212). -/
def execWrCtrl (v : Word) (s : State) : Host.Outcome State Fault Refusal := .next (s.writeCtrl v)

/-- WR STATUS (R213). -/
def execWrStatus (v : Word) (s : State) : Host.Outcome State Fault Refusal := .next (s.writeStatus v)

/-- WR IER (R214). -/
def execWrIer (v : Word) (s : State) : Host.Outcome State Fault Refusal := .next (s.writeIer v)

/-- WR SRC|DST|LEN|TYPE|CRC_STATE (R215). -/
def execWrOperand (r : OperandReg) (v : Word) (s : State) : Host.Outcome State Fault Refusal :=
  .next (s.writeOperand r v)

/-- RB (R216). A pending SER's destination reads as any byte, written or not (log entry 9); any other byte as what was last
written, and the model stops where nothing was (R303). An address outside BUF is no legal tuple (R106). -/
def execRb (a : Nat) (s : State) : Host.Outcome State Fault Refusal :=
  if s.bufSize ≤ a then .next (s.answering .error)
  else if s.pendingSerAt a then
    .next ({ s with freeCount := s.freeCount + 1 }.answering (.okayByte (Config.freeByte s.freeCount)))
  else
    match s.buf.read a with
    | none => .fault (.unwrittenByte a)
    | some b => .next (s.answering (.okayByte b))

/-- WB (R217). An address outside BUF is no legal tuple (R106). -/
def execWb (a : Nat) (w : Byte) (s : State) : Host.Outcome State Fault Refusal :=
  if s.bufSize ≤ a then .next (s.answering .error)
  else if s.busy then .next s.dropWrite
  else .next ({ s with buf := s.buf.write a w }.answering .okay)

/-- A bus error (R219): answered ERROR, nothing changes, nothing is recorded. -/
def execBusError (_t : Transaction) (s : State) : Host.Outcome State Fault Refusal := .next (s.answering .error)

end Sys2Proof.Machine
end

