-- ==== Sys2Proof/Machine/Dispatch.lean ====
section
/-! DEFINITION. One arm for each instruction. -/

namespace Sys2Proof.Machine

/-- The meaning of an instruction in a state: the completion of a command, or a host transaction. Whether the engine is busy is
asked by the step (Schedule.lean), not here (log entry 13). -/
def exec (i : Instr) (s : State) : Host.Outcome State Fault Refusal :=
  match i with
  | .crc init => Sys2Proof.Machine.execCrc init s
  | .ser init => Sys2Proof.Machine.execSer init s
  | .parse init => Sys2Proof.Machine.execParse init s
  | .illegal word => Sys2Proof.Machine.execIllegal word s
  | .rd r => Sys2Proof.Machine.execRd r s
  | .wr r v => Sys2Proof.Machine.execWr r v s
  | .wrCtrl v => Sys2Proof.Machine.execWrCtrl v s
  | .wrStatus v => Sys2Proof.Machine.execWrStatus v s
  | .wrIer v => Sys2Proof.Machine.execWrIer v s
  | .wrOperand r v => Sys2Proof.Machine.execWrOperand r v s
  | .rb a => Sys2Proof.Machine.execRb a s
  | .wb a w => Sys2Proof.Machine.execWb a w s
  | .busError t => Sys2Proof.Machine.execBusError t s

end Sys2Proof.Machine
end

