-- ==== Sys2Proof/Machine/Schedule.lean ====
section
/-! DEFINITION. Whose turn it is: the host, the engine, or a reset (R11, R82), and how a command is placed for the next step. -/

namespace Sys2Proof.Machine

/-- What a step does. -/
inductive Turn where
  /-- Run this instruction in this state. -/
  | run (i : Instr) (s : State)
  /-- No instruction runs; this is the next state. -/
  | pass (s : State)
deriving DecidableEq, Repr

/-- The engine's turn (R142): its one step is the completion of the word in CTRL, enabled exactly while busy. -/
def State.engineTurn (s : State) : Turn := if s.busy then .run (decodeCtrl s.ctrl) s else .pass s

/-- The next turn: the first event of the inputs still to come. With none left a pending command completes (the weak fairness of
R145), and an idle block waits (log entries 2 and 3). A request outside both apertures does not reach the block (R70). -/
def State.turn (s : State) : Turn :=
  match s.events with
  | [] => s.engineTurn
  | .engine :: rest => ({ s with events := rest } : State).engineTurn
  | .reset :: rest => .pass ({ s with events := rest } : State).hardReset
  | .host r :: rest =>
    match decodeRequest s.params r with
    | .ok i => .run i { s with events := rest }
    | .error _ => .pass { s with events := rest }

/-- The word issued as by an accepted CTRL write (R141) and the engine next in turn (log entry 4). -/
def State.placeCommand (s : State) (v : Word) : State := { s.issue v with events := .engine :: s.events }

end Sys2Proof.Machine
end

