-- ==== Sys2Proof/Machine/Step.lean ====
section
/-! DEFINITION. One step of the machine: one event of the total order (R11, R82). -/

namespace Sys2Proof.Machine

/-- One step: the turn's instruction, if it has one. -/
def step (s : State) : Host.Outcome State Fault Refusal :=
  match s.turn with
  | .run i s' => exec i s'
  | .pass s' => .next s'

/-- The state whose next step runs the command word given by the bits of an opcode-table row (log entry 4). -/
def State.withFetchWord (s : State) (nbits w : Nat) : State := s.placeCommand (BitVec.ofNat 32 (w % 2 ^ nbits))

end Sys2Proof.Machine
end

