-- ==== Sys2Proof/Machine/HostProgram.lean ====
section
/-! DEFINITION. Host program lines and their expansions (30_encoding.md R113, R114). A line is a term; its text is not parsed. -/

namespace Sys2Proof.Machine

/-- The four forms of R113. -/
inductive HostLine where
  | wr (r : Reg) (v : Word)
  | rd (r : Reg)
  | wb (a : Nat) (w : Byte)
  | rb (a : Nat)
deriving DecidableEq, Repr

/-- The transaction a line stands for (R113). -/
def HostLine.transaction : HostLine → Transaction
  | .wr r v => ⟨.reg, r.offset, .write4 v⟩
  | .rd r => ⟨.reg, r.offset, .read .four⟩
  | .wb a w => ⟨.buf, a, .write1 w⟩
  | .rb a => ⟨.buf, a, .read .one⟩

/-- The bus request of a line. -/
def HostLine.request (p : Params) (l : HostLine) : Request := l.transaction.request p

/-- `WBS addr, bytes` (R114). -/
def wbs (a : Nat) : List Byte → List HostLine
  | [] => []
  | b :: bs => .wb a b :: wbs (a + 1) bs

/-- `POLL` (R114) when the host reads STATUS `k + 1` times. How often it repeats is the host's own loop (log entry 18). -/
def poll (k : Nat) : List HostLine := List.replicate (k + 1) (.rd .status)

/-- `CLR` (R114). -/
def clr : List HostLine := [.wr .status 0x0000000E]

/-- `DO.CRC` (R114), with `k + 1` reads in its POLL. -/
def doCrc (src len : Word) (init : Bool) (k : Nat) : List HostLine :=
  [.wr .src src, .wr .len len, .wr .ctrl (0x01 ||| ((BitVec.ofBool init).setWidth 32 <<< 4))] ++ poll k

/-- `DO.SER` (R114). -/
def doSer (type src len dst : Word) (k : Nat) : List HostLine :=
  [.wr .typeCode type, .wr .src src, .wr .len len, .wr .dst dst, .wr .ctrl 0x02] ++ poll k

/-- `DO.PARSE` (R114). -/
def doParse (src avail : Word) (k : Nat) : List HostLine := [.wr .src src, .wr .len avail, .wr .ctrl 0x03] ++ poll k

end Sys2Proof.Machine
end

