-- ==== Sys2Proof/Machine/Launch.lean ====
section
/-! DEFINITION. The launch states of 70_reset_and_hazards.md R314. -/

namespace Sys2Proof.Machine

/-- A pending CTRL word and the bits of STATUS a test may list together with it, and only then (R314). DONE has no place here:
it is 0 while BUSY (R141, R210, log entry 20). That ERRCODE may be listed, which is no pending bit, is a DESIGN CHOICE
(log entry 21). -/
structure PendingWord where
  word : Word
  err : Bool := false
  ovr : Bool := false
  errCode : ErrCode := .ok
deriving DecidableEq, Repr

/-- What a test lists beside the reset state: the parameters, written BUF bytes, written operand registers and IER, the inputs,
and, only where a test says so, a pending word with its STATUS bits. -/
structure Launch where
  params : Params
  bytes : List (Nat × Byte)
  operands : List (OperandReg × Word)
  ier : Word
  events : List Event
  pending : Option PendingWord := none
deriving DecidableEq, Repr

/-- The listed bytes, written one after the other. An address outside BUF is no byte of BUF and is passed over. -/
def Launch.buf (l : Launch) : Memory :=
  (l.bytes.filter (fun c => decide (c.1 < l.params.bufSize))).foldl (fun m c => m.write c.1 c.2) []

/-- The launch state (R314): the reset state with what is listed. STATUS is 0 unless a pending word is listed, which is there
as if just issued (R141). -/
def Launch.state (l : Launch) : State :=
  let s : State :=
    { State.reset with
      params := l.params, ier := Ier.ofWord l.ier, buf := l.buf, events := l.events }
  let s := l.operands.foldl (fun s o => s.setOperand o.1 o.2) s
  match l.pending with
  | none => s
  | some p => ({ s with status := { done := false, err := p.err, ovr := p.ovr, errCode := p.errCode } } : State).issue p.word

end Sys2Proof.Machine
end

