-- ==== Sys2Proof/Safety.lean ====
section
/-! DEFINITION. What counts as a good state and a safe run, and the words the statements are written in. -/

namespace Sys2Proof.Machine

/-- What every step keeps: the parameters are ones R5 and R70 allow, BUF is in canonical form and holds no byte past BUF_SIZE
(R38), SRC and DST hold BUF addresses (R25, R26), and DONE is 0 while BUSY is 1 (R210). -/
abbrev State.inv (s : State) : Prop :=
  s.params.wf = true ∧ s.buf.wf ∧ s.buf.below s.bufSize = true ∧ s.src.toNat < s.bufSize ∧ s.dst.toNat < s.bufSize ∧
    (s.busy = true → s.status.done = false)

/-- The result registers hold their reset values, or describe a frame that lies in BUF and has a type code of letters
(R32 to R36). -/
abbrev State.resultsDescribeFrame (s : State) : Prop :=
  (s.resLen = 0 ∧ s.resType = 0 ∧ s.resCrc = 0 ∧ s.resData = 0 ∧ s.resSize = 0) ∨
    ((unpack s.resType).alpha = true ∧ s.resSize.toNat = 12 + s.resLen.toNat ∧ 8 ≤ s.resData.toNat ∧
      s.resData.toNat - 8 + s.resSize.toNat ≤ s.bufSize)

/-- BUF holds `bytes` from address `a` on, each written. -/
abbrev Memory.holds (m : Memory) (a : Nat) (bytes : List Byte) : Prop :=
  ∀ k, (h : k < bytes.length) → m.read (a + k) = some bytes[k]

/-- The number four bytes of BUF spell, most significant first (R72); none where one of them is unwritten. -/
def Memory.beNat (m : Memory) (a : Nat) : Option Nat :=
  match m.read a, m.read (a + 1), m.read (a + 2), m.read (a + 3) with
  | some b0, some b1, some b2, some b3 =>
    some (b0.toNat * 2 ^ 24 + b1.toNat * 2 ^ 16 + b2.toNat * 2 ^ 8 + b3.toNat)
  | _, _, _, _ => none

/-- The state after a command that fails with code `c` (R142, R143). -/
def State.failedWith (s : State) (c : ErrCode) : State :=
  { s with phase := .idle, status := { done := true, err := true, ovr := s.status.ovr, errCode := c } }

/-- The fields of STATUS after a command that succeeds (R142). -/
def Status.succeeded (st : Status) : Status := { done := true, err := st.err, ovr := st.ovr, errCode := .ok }

/-- The numbers of the error codes (R111). -/
def ErrCode.number : ErrCode → Nat
  | .ok => 0 | .illegalCmd => 1 | .range => 2 | .overlap => 3
  | .invalidType => 4 | .truncated => 5 | .crcMismatch => 6

/-- An outcome with its next state seen through `f`. -/
def mapNext (f : State → State) : Host.Outcome State Fault Refusal → Host.Outcome State Fault Refusal
  | .next t => .next (f t)
  | .fault r => .fault r
  | .refused r => .refused r

/-- Byte `k` of the type code a register holds, byte 0 in [31:24] (R28). -/
def registerByte (w : Word) (k : Nat) : Nat := w.toNat / 2 ^ (24 - 8 * k) % 256

/-- An ASCII letter (R110). -/
abbrev asciiLetter (n : Nat) : Prop := (0x41 ≤ n ∧ n ≤ 0x5A) ∨ (0x61 ≤ n ∧ n ≤ 0x7A)

/-- A register holds four letters (R151). -/
abbrev lettersOnly (w : Word) : Prop := ∀ k, k < 4 → asciiLetter (registerByte w k)

/-- Bytes with bit `j` of byte `i` the other way (R186). -/
def flipBit (bytes : List Byte) (i j : Nat) : List Byte := bytes.modify i (fun b => b ^^^ (1#8 <<< j))

/-- Whether an event is a host transaction. -/
def Event.isHost : Event → Bool
  | .host _ => true
  | .engine | .reset => false

/-- A run is over (R315): no host transaction is left, and the engine is IDLE. Turns of the engine and resets may be left. -/
def State.ended (s : State) : Prop := s.events.any Event.isHost = false ∧ s.phase = .idle

/-- A run from `s` ends after `k` steps, in `t`: the first state in which it is over (R315). A run that stops before has no end. -/
def State.endsIn (s : State) (k : Nat) (t : State) : Prop :=
  Host.Core.run Sys2Proof.core k s = .next t ∧ t.ended ∧
    ∀ j u, j < k → Host.Core.run Sys2Proof.core j s = .next u → ¬ u.ended

/-- What a claim about the end of a run may speak of (R315): every register of 10_state.md as it reads, BUF with its
written-mask, and `irq`. The phase is IDLE. -/
structure EndState where
  registers : List (Reg × Word)
  buf : Memory
  irq : Bool
deriving DecidableEq, Repr

/-- The sixteen registers (R105). -/
def Reg.all : List Reg :=
  [.ctrl, .status, .ier, .src, .dst, .len, .typeCode, .crcState, .crcResult, .flags, .resLen, .resType, .resCrc, .resData,
    .resSize, .cfg]

/-- The end state a run leaves in `s` (R315). -/
def State.endState (s : State) : EndState where
  registers := Reg.all.map fun r => (r, s.readReg r)
  buf := s.buf
  irq := s.irq

/-- A safe run of `k` steps: no step stops the model. -/
def State.safeFor (s : State) (k : Nat) : Prop := ∃ t, Host.Core.run Sys2Proof.core k s = .next t

end Sys2Proof.Machine
end

