-- ==== Sys2Proof/Certificates/Slice0/Obligations.lean ====
section
/-! DEFINITION. The statements for the provers. Each docstring names the rule of spec/ it formalises, or the log entry of
notes/assumptions/ where the point is the model's own choice. -/

open Sys2Proof Sys2Proof.Machine

/-! ## Encodings -/

/-- R103: v[31:5] = 0 and v[3:0] in {1, 2, 3} is the same as being one of the six listed words; each of those decodes to its
command, and every other word is illegal and completes with ILLEGAL_CMD. -/
def Obligations.LegalWordsAreExactlySix : Prop :=
  (∀ v : Word, (v.toNat / 2 ^ 5 = 0 ∧ (v.toNat % 2 ^ 4 = 1 ∨ v.toNat % 2 ^ 4 = 2 ∨ v.toNat % 2 ^ 4 = 3)) ↔
    v ∈ ([0x01, 0x11, 0x02, 0x12, 0x03, 0x13] : List Word)) ∧
  (decodeCtrl 0x01 = .crc false ∧ decodeCtrl 0x11 = .crc true ∧ decodeCtrl 0x02 = .ser false ∧
    decodeCtrl 0x12 = .ser true ∧ decodeCtrl 0x03 = .parse false ∧ decodeCtrl 0x13 = .parse true) ∧
  (∀ (v : Word) (s : State), v ∉ ([0x01, 0x11, 0x02, 0x12, 0x03, 0x13] : List Word) →
    decodeCtrl v = .illegal v ∧ exec (decodeCtrl v) s = .next (s.failedWith .illegalCmd))

/-- Words and tuples written out from R101, R105 and R106 decode to the rows they stand for. -/
def Obligations.WrittenWordsDecode : Prop :=
  decodeTableWord 32 0x00000001 = some (.crc false) ∧ decodeTableWord 32 0x00000012 = some (.ser true) ∧
  decodeTableWord 32 0x00000003 = some (.parse false) ∧ decodeTableWord 32 0x00000021 = some (.illegal 0x21) ∧
  (∀ p : Params,
    decode p (.transaction ⟨.reg, 0x04, .read .four⟩) = .rd .status ∧
    decode p (.transaction ⟨.reg, 0x28, .write4 5⟩) = .wr .resLen 5 ∧
    decode p (.transaction ⟨.reg, 0x00, .write4 0x11⟩) = .wrCtrl 0x11 ∧
    decode p (.transaction ⟨.reg, 0x04, .write4 0x0E⟩) = .wrStatus 0x0E ∧
    decode p (.transaction ⟨.reg, 0x08, .write4 2⟩) = .wrIer 2 ∧
    decode p (.transaction ⟨.reg, 0x18, .write4 0x52755374⟩) = .wrOperand .typeCode 0x52755374 ∧
    decode p (.transaction ⟨.reg, 0x06, .read .four⟩) = .busError ⟨.reg, 0x06, .read .four⟩ ∧
    decode p (.transaction ⟨.buf, 0, .write4 7⟩) = .busError ⟨.buf, 0, .write4 7⟩ ∧
    (p.bufSize = 256 →
      decode p (.transaction ⟨.buf, 3, .read .one⟩) = .rb 3 ∧
      decode p (.transaction ⟨.buf, 255, .write1 0x31⟩) = .wb 255 0x31))

/-- Decode and encode agree: every well-formed instruction of every row comes back from its encoding, whatever its operands. -/
def Obligations.DecodeOfEncode : Prop :=
  ∀ (p : Params) (i : Instr), i.wf p = true → decode p (encode i) = i

/-- The other way: every CTRL word and every tuple decodes to a well-formed instruction whose encoding it is, so no two
encodings share an instruction. Which row a register write takes is the model's choice (log entry 11). -/
def Obligations.EncodeOfDecode : Prop :=
  ∀ (p : Params) (e : Encoded), (decode p e).wf p = true ∧ encode (decode p e) = e

/-- R70: an address in an aperture selects the offset in it, any other does not reach the block, whose state keeps. -/
def Obligations.AddressSelectsAperture : Prop :=
  ∀ p : Params, p.wf = true →
    (∀ o acc, o < 64 →
      decodeRequest p ⟨p.regBase + o, acc⟩ = .ok (decode p (.transaction ⟨.reg, o, acc⟩))) ∧
    (∀ a acc, a < p.bufSize →
      decodeRequest p ⟨p.bufBase + a, acc⟩ = .ok (decode p (.transaction ⟨.buf, a, acc⟩))) ∧
    (∀ addr acc, (addr < p.regBase ∨ p.regBase + 64 ≤ addr) → (addr < p.bufBase ∨ p.bufBase + p.bufSize ≤ addr) →
      decodeRequest p ⟨addr, acc⟩ = .error (.outsideApertures addr) ∧
      ∀ (s : State) (rest : List Event), s.params = p → s.events = .host ⟨addr, acc⟩ :: rest →
        step s = .next { s with events := rest })

/-- R113: each of the four line forms reaches the block as its transaction; a register write line does what the dispatch of
R211 does for its register. -/
def Obligations.HostLinesReachTheirInstructions : Prop :=
  ∀ p : Params, p.wf = true →
    (∀ r, decodeRequest p ((HostLine.rd r).request p) = .ok (.rd r)) ∧
    (∀ r v, ∃ i, decodeRequest p ((HostLine.wr r v).request p) = .ok i ∧ ∀ s, exec i s = exec (.wr r v) s) ∧
    (∀ a, a < p.bufSize → decodeRequest p ((HostLine.rb a).request p) = .ok (.rb a)) ∧
    (∀ a w, a < p.bufSize → decodeRequest p ((HostLine.wb a w).request p) = .ok (.wb a w))

/-! ## Steps -/

/-- A step runs the decoded transaction: the first input is a request that decodes to `i`. -/
def Obligations.StepRunsDecodedTransaction : Prop :=
  ∀ (s : State) (r : Request) (rest : List Event) (i : Instr),
    s.events = .host r :: rest → decodeRequest s.params r = .ok i → step s = exec i { s with events := rest }

/-- R142: the engine's turn runs the word in CTRL while busy and nothing while idle. With no input left a pending command
runs and its completion ends the run, and an idle block keeps its state: the model's schedule, log entries 2 and 3. A run
that is over stays over, and only a reset can still change its end state (R315). -/
def Obligations.EngineTurnRunsPendingWord : Prop :=
  ∀ s : State,
    (∀ rest, s.events = .engine :: rest → s.phase = .busy → step s = exec (decodeCtrl s.ctrl) { s with events := rest }) ∧
    (∀ rest, s.events = .engine :: rest → s.phase = .idle → step s = .next { s with events := rest }) ∧
    (s.events = [] → s.phase = .busy → step s = exec (decodeCtrl s.ctrl) s) ∧
    (s.events = [] → s.phase = .busy → ∀ t, step s = .next t → s.endsIn 1 t) ∧
    (s.events = [] → s.phase = .idle → step s = .next s) ∧
    (s.ended → ∃ t, step s = .next t ∧ t.ended ∧ ((∀ e ∈ s.events, e ≠ .reset) → t.endState = s.endState))

/-- The placed command runs in the next step, from the state an accepted CTRL write leaves (log entry 4). -/
def Obligations.PlacedWordRunsNext : Prop :=
  ∀ (s : State) (nbits w : Nat) (i : Instr), decodeTableWord nbits w = some i →
    step (s.withFetchWord nbits w) = exec i
      { s with ctrl := BitVec.ofNat 32 (w % 2 ^ nbits), phase := .busy, status := { s.status with done := false } }

/-! ## Reset -/

/-- R301: the reset values, read as the registers read, with every byte of BUF unwritten and `irq` 0. CFG reads the BUF_LOG2
of the reset state, whose value is the model's choice (log entry 1). -/
def Obligations.ResetValues : Prop :=
  State.reset.phase = .idle ∧
  (∀ r ∈ [Reg.ctrl, .status, .ier, .src, .dst, .len, .typeCode, .crcResult, .flags, .resLen, .resType, .resCrc, .resData,
    .resSize], State.reset.readReg r = 0) ∧
  State.reset.readReg .crcState = 0xFFFFFFFF ∧
  (State.reset.readReg .cfg).toNat = State.reset.params.bufLog2.toNat ∧
  State.reset.irq = false ∧
  (∀ a, State.reset.buf.read a = none)

/-- R302, R300, R303: a reset in any state, busy or not, leaves the reset values, and every byte of BUF, a pending SER's window
among them, unwritten. That the parameters and the inputs to come stay is the model's (log entry 14). -/
def Obligations.ResetCancelsPendingCommand : Prop :=
  ∀ (s : State) (rest : List Event), s.events = .reset :: rest →
    ∃ t, step s = .next t ∧ t.phase = .idle ∧ t.status.done = false ∧
      (∀ r, r ≠ .cfg → t.readReg r = State.reset.readReg r) ∧ t.readReg .cfg = s.readReg .cfg ∧
      (∀ a, t.buf.read a = none) ∧ t.irq = false ∧ t.params = s.params ∧ t.events = rest

/-! ## Invariants of every step -/

/-- Every step keeps the invariant: BUF canonical and inside BUF_SIZE, SRC and DST addresses of BUF, DONE 0 while BUSY. -/
def Obligations.StepKeepsInvariant : Prop :=
  ∀ s t : State, s.inv → step s = .next t → t.inv

/-- The invariant holds at reset. -/
def Obligations.ResetMeetsInvariant : Prop := State.reset.inv

/-- The invariant holds in every launch state of R314 with allowed parameters, whatever is listed. That a byte listed outside
BUF is passed over and that DONE cannot be listed beside a pending word is the model's deduction (log entry 20), and that
ERRCODE can is its choice (log entry 21). -/
def Obligations.LaunchMeetsInvariant : Prop := ∀ l : Launch, l.params.wf = true → l.state.inv

/-- Every step keeps the result registers describing a frame in BUF, with 12 + RES_LEN = RES_SIZE and a type of letters. -/
def Obligations.StepKeepsResultsDescribingFrame : Prop :=
  ∀ s t : State, s.resultsDescribeFrame → step s = .next t → t.resultsDescribeFrame

/-- R37: CFG[4:0] reads BUF_LOG2, the rest 0, and no step, a reset among them, changes it. -/
def Obligations.CfgIsConstant : Prop :=
  (∀ s : State, ∀ j, (s.readReg .cfg).getLsbD j = (decide (j < 5) && s.params.bufLog2.getLsbD j)) ∧
  (∀ s t : State, step s = .next t → t.readReg .cfg = s.readReg .cfg ∧ t.params = s.params)

/-- The only stop is a byte of BUF that nothing has written: never a refusal, and a fault names such a byte (R303, entry I2).
So a run with every byte written and no reset among its inputs never stops. -/
def Obligations.OnlyUnwrittenBytesStop : Prop :=
  (∀ (s : State) (r : Refusal), step s ≠ .refused r) ∧
  (∀ (s : State) (f : Fault), step s = .fault f → ∃ x, f = .unwrittenByte x ∧ x < s.bufSize ∧ s.buf.read x = none) ∧
  (∀ s : State, (∀ a, a < s.bufSize → s.buf.read a ≠ none) → (∀ e ∈ s.events, e ≠ .reset) → ∀ k, s.safeFor k)

/-! ## The CRC -/

/-- R163: the table form of the update, with the listed entries. -/
def Obligations.TableFormOfUpdate : Prop :=
  (∀ (c : Word) (b : Byte),
    crcUpd c b = (c >>> 8) ^^^ crcUpd 0 ((c ^^^ b.setWidth 32).extractLsb' 0 8)) ∧
  crcUpd 0 0 = 0x00000000 ∧ crcUpd 0 1 = 0x77073096 ∧ crcUpd 0 2 = 0xEE0E612C ∧ crcUpd 0 3 = 0x990951BA ∧
  crcUpd 0 128 = 0xEDB88320 ∧ crcUpd 0 255 = 0x2D02EF8D

/-- R161 and R164: the shift register, one byte and then a sequence of bytes in ascending order, and a CRC over a
concatenation; and the check value of the CRC of "123456789". -/
def Obligations.CrcOfConcatenation : Prop :=
  (∀ (c : Word) (b : Byte),
    let shift : Word → Word := fun c => if c.getLsbD 0 = true then (c >>> 1) ^^^ 0xEDB88320 else c >>> 1
    crcUpd c b = shift (shift (shift (shift (shift (shift (shift (shift (c ^^^ b.setWidth 32))))))))) ∧
  (∀ seed : Word, crcRaw seed [] = seed) ∧
  (∀ (seed : Word) (b : Byte) (bs : List Byte), crcRaw seed (b :: bs) = crcRaw (crcUpd seed b) bs) ∧
  crc32 [0x31, 0x32, 0x33, 0x34, 0x35, 0x36, 0x37, 0x38, 0x39] = 0xCBF43926 ∧
  (∀ (seed : Word) (a b : List Byte), crcRaw seed (a ++ b) = crcRaw (crcRaw seed a) b) ∧
  (∀ a b : List Byte, crc32 (a ++ b) = crcRaw (crcRaw 0xFFFFFFFF a) b ^^^ 0xFFFFFFFF) ∧
  crc32 [] = 0

/-- A CRC command over a written window in BUF completes: CRC_STATE takes the raw CRC of the window from the seed INIT chooses,
STATUS shows success, everything else keeps (R165, R142). -/
def Obligations.CrcCompletes : Prop :=
  ∀ (init : Bool) (s : State) (bytes : List Byte),
    s.len.toNat = bytes.length → s.src.toNat + s.len.toNat ≤ 2 ^ s.params.bufLog2.toNat →
    s.buf.holds s.src.toNat bytes →
    exec (.crc init) s = .next { s with
      crcState := crcRaw (if init then 0xFFFFFFFF else s.crcState) bytes
      phase := .idle
      status := s.status.succeeded }

/-- The only error of a CRC command, exactly when its window passes the end of BUF, on exact integers (R165, R261, R9). -/
def Obligations.CrcOutOfRange : Prop :=
  ∀ (init : Bool) (s : State),
    (2 ^ s.params.bufLog2.toNat < s.src.toNat + s.len.toNat → exec (.crc init) s = .next (s.failedWith .range)) ∧
    (∀ t, exec (.crc init) s = .next t → t.status.errCode ≠ .ok → 2 ^ s.params.bufLog2.toNat < s.src.toNat + s.len.toNat)

/-- R30: CRC_RESULT is the complement of CRC_STATE, reads crc32(S) after a CRC command with INIT = 1 over S, and is 0 after
reset; it is read-only. -/
def Obligations.CrcResultIsComplement : Prop :=
  (∀ s : State, s.readReg .crcResult = s.readReg .crcState ^^^ 0xFFFFFFFF) ∧
  (∀ (s t : State) (bytes : List Byte),
    s.len.toNat = bytes.length → s.buf.holds s.src.toNat bytes → exec (.crc true) s = .next t →
    t.status.errCode = .ok → t.readReg .crcResult = crc32 bytes) ∧
  State.reset.readReg .crcResult = 0 ∧
  (∀ (s : State) (v : Word), ∃ t, exec (.wr .crcResult v) s = .next t ∧ t.readReg .crcResult = s.readReg .crcResult)

/-- R166: a CRC in two parts, a CRC resumed from a known final value, and a frame's CRC by one command. -/
def Obligations.ContinuingCrc : Prop :=
  ∀ (s : State) (a b : List Byte) (srcA lenA srcB lenB : Word),
    lenA.toNat = a.length → srcA.toNat + lenA.toNat ≤ 2 ^ s.params.bufLog2.toNat → s.buf.holds srcA.toNat a →
    lenB.toNat = b.length → srcB.toNat + lenB.toNat ≤ 2 ^ s.params.bufLog2.toNat → s.buf.holds srcB.toNat b →
    (∃ t, exec (.crc true) { s with src := srcA, len := lenA } = .next t ∧
      ∃ u, exec (.crc false) { t with src := srcB, len := lenB } = .next u ∧ u.readReg .crcResult = crc32 (a ++ b)) ∧
    (∃ u, exec (.crc false) { s with src := srcB, len := lenB, crcState := crc32 a ^^^ 0xFFFFFFFF } = .next u ∧
      u.readReg .crcResult = crc32 (a ++ b)) ∧
    (∀ (type : TypeCode) (data : List Byte), a = type.bytes ++ data →
      ∃ t, exec (.crc true) { s with src := srcA, len := lenA } = .next t ∧ t.readReg .crcResult = chunkCrc type data)

/-! ## The type-code checker -/

/-- R31 with R152 to R155: FLAGS bit by bit, from the numbers of the bytes and the case bits of TYPE and RES_TYPE. Bit 5 of
byte k is bit 29 - 8k of the register. -/
def Obligations.FlagsBits : Prop :=
  (∀ s : State, ∀ j,
    (s.readReg .flags).getLsbD j = true ↔
      (j = 0 ∧ lettersOnly s.typeCode) ∨
      (j = 1 ∧ lettersOnly s.typeCode ∧ s.typeCode.getLsbD 29 = false) ∨
      (j = 2 ∧ lettersOnly s.typeCode ∧ s.typeCode.getLsbD 21 = false) ∨
      (j = 3 ∧ lettersOnly s.typeCode ∧ s.typeCode.getLsbD 13 = false) ∨
      (j = 4 ∧ lettersOnly s.typeCode ∧ s.typeCode.getLsbD 5 = true) ∨
      (j = 5 ∧ lettersOnly s.typeCode ∧ s.typeCode.getLsbD 13 = false) ∨
      (j = 8 ∧ lettersOnly s.resType) ∨
      (j = 9 ∧ lettersOnly s.resType ∧ s.resType.getLsbD 29 = false) ∨
      (j = 10 ∧ lettersOnly s.resType ∧ s.resType.getLsbD 21 = false) ∨
      (j = 11 ∧ lettersOnly s.resType ∧ s.resType.getLsbD 13 = false) ∨
      (j = 12 ∧ lettersOnly s.resType ∧ s.resType.getLsbD 5 = true) ∨
      (j = 13 ∧ lettersOnly s.resType ∧ s.resType.getLsbD 13 = false)) ∧
  State.reset.readReg .flags = 0

/-- R157: SER writes TYPE's four bytes to the frame unchanged, and PARSE copies the frame's four bytes to RES_TYPE unchanged. -/
def Obligations.TypeBytesNeverChanged : Prop :=
  ∀ (init : Bool) (s t : State), t.status.errCode = .ok →
    (exec (.ser init) s = .next t →
      t.resType = s.typeCode ∧
      ∀ k, k < 4 → t.buf.read (s.dst.toNat + 4 + k) = some (BitVec.ofNat 8 (registerByte s.typeCode k))) ∧
    (exec (.parse init) s = .next t →
      ∀ k, k < 4 → s.buf.read (s.src.toNat + 4 + k) = some (BitVec.ofNat 8 (registerByte t.resType k)))

/-! ## The framer -/

/-- R107, R181: where each field of a serialized frame lies, and how long the frame is. -/
def Obligations.SerializedFrameLayout : Prop :=
  ∀ (type : TypeCode) (data : List Byte), data.length < 2 ^ 32 →
    (serializeBytes type data).length = 12 + data.length ∧
    ((serializeBytes type data).take 4).foldl (fun n b => n * 256 + b.toNat) 0 = data.length ∧
    ((serializeBytes type data).drop 4).take 4 = [type.t0, type.t1, type.t2, type.t3] ∧
    ((serializeBytes type data).drop 8).take data.length = data ∧
    ((serializeBytes type data).drop (8 + data.length)).foldl (fun n b => n * 256 + b.toNat) 0 =
      (chunkCrc type data).toNat

/-- Parsing what was serialized gives it back, whatever follows the frame (R182, and 90_conflicts.md C2). -/
def Obligations.ParseOfSerialize : Prop :=
  ∀ (type : TypeCode) (data rest : List Byte), type.alpha = true → data.length < 2 ^ 32 →
    parseBytes (serializeBytes type data ++ rest) =
      .ok ⟨BitVec.ofNat 32 data.length, type, data, chunkCrc type data⟩

/-- R186 (a) and (b): a flipped bit of the type field gives INVALID_TYPE or CRC_MISMATCH as the byte is still a letter or not,
and a flipped bit of the data or CRC field always gives CRC_MISMATCH. -/
def Obligations.FlippedTypeDataOrCrcBitDetected : Prop :=
  ∀ (type : TypeCode) (data : List Byte) (i j : Nat), type.alpha = true → data.length < 2 ^ 32 → j < 8 →
    (4 ≤ i → i < 8 →
      parseBytes (flipBit (serializeBytes type data) i j) =
        .error (if isLetter ((serializeBytes type data).getD i 0 ^^^ (1#8 <<< j)) then .crcMismatch else .invalidType)) ∧
    (8 ≤ i → i < 12 + data.length → parseBytes (flipBit (serializeBytes type data) i j) = .error .crcMismatch)

/-- R186 (c) and (d): a flipped bit of the length field gives TRUNCATED when the length grows; when it falls, CRC_MISMATCH
unless the bytes where the CRC now stands are the shorter payload's CRC, and then success with that payload. -/
def Obligations.FlippedLengthBit : Prop :=
  ∀ (type : TypeCode) (data : List Byte) (i j : Nat), type.alpha = true → data.length < 2 ^ 32 → i < 4 → j < 8 →
    ∃ l : Word, l = BitVec.ofNat 32 data.length ^^^ (1#32 <<< (8 * (3 - i) + j)) ∧
      (data.length < l.toNat → parseBytes (flipBit (serializeBytes type data) i j) = .error .truncated) ∧
      (l.toNat < data.length →
        parseBytes (flipBit (serializeBytes type data) i j) =
          if ((serializeBytes type data).drop (8 + l.toNat)).take 4 = be32 (chunkCrc type (data.take l.toNat)) then
            .ok ⟨l, type, data.take l.toNat, chunkCrc type (data.take l.toNat)⟩
          else .error .crcMismatch)

/-- A SER whose windows lie in BUF and do not meet, or are in place, whose TYPE holds letters and whose payload is written
completes: the frame stands at DST, every other byte of BUF keeps, the result registers describe the frame, STATUS shows
success, everything else keeps (R183, R142). -/
def Obligations.SerCompletes : Prop :=
  ∀ (init : Bool) (s : State) (data : List Byte),
    s.len.toNat = data.length → s.src.toNat + s.len.toNat ≤ 2 ^ s.params.bufLog2.toNat →
    s.dst.toNat + 12 + s.len.toNat ≤ 2 ^ s.params.bufLog2.toNat →
    (s.len.toNat = 0 ∨ s.src.toNat + s.len.toNat ≤ s.dst.toNat ∨ s.dst.toNat + 12 + s.len.toNat ≤ s.src.toNat ∨
      s.src.toNat = s.dst.toNat + 8) →
    lettersOnly s.typeCode → s.buf.holds s.src.toNat data →
    ∃ t, exec (.ser init) s = .next t ∧
      t.buf.holds s.dst.toNat (serializeBytes (unpack s.typeCode) data) ∧
      (∀ a, a < s.dst.toNat ∨ s.dst.toNat + 12 + s.len.toNat ≤ a → t.buf.read a = s.buf.read a) ∧
      t = { s with
        buf := t.buf
        resLen := s.len
        resType := s.typeCode
        resCrc := chunkCrc (unpack s.typeCode) data
        resData := BitVec.ofNat 32 (s.dst.toNat + 8)
        resSize := BitVec.ofNat 32 (12 + s.len.toNat)
        phase := .idle
        status := s.status.succeeded }

/-- The errors of SER, each with its condition, in the order R263 gives: RANGE (payload window), RANGE (frame window), OVERLAP,
INVALID_TYPE (R183, R261). -/
def Obligations.SerErrorsInOrder : Prop :=
  ∀ (init : Bool) (s : State),
    (2 ^ s.params.bufLog2.toNat < s.src.toNat + s.len.toNat → exec (.ser init) s = .next (s.failedWith .range)) ∧
    (2 ^ s.params.bufLog2.toNat < s.dst.toNat + 12 + s.len.toNat → exec (.ser init) s = .next (s.failedWith .range)) ∧
    (s.src.toNat + s.len.toNat ≤ 2 ^ s.params.bufLog2.toNat →
      s.dst.toNat + 12 + s.len.toNat ≤ 2 ^ s.params.bufLog2.toNat →
      ((∃ x, s.src.toNat ≤ x ∧ x < s.src.toNat + s.len.toNat ∧ s.dst.toNat ≤ x ∧ x < s.dst.toNat + 12 + s.len.toNat) ∧
        s.src.toNat ≠ s.dst.toNat + 8 → exec (.ser init) s = .next (s.failedWith .overlap)) ∧
      ((∀ x, s.src.toNat ≤ x → x < s.src.toNat + s.len.toNat → x < s.dst.toNat ∨ s.dst.toNat + 12 + s.len.toNat ≤ x) ∨
        s.src.toNat = s.dst.toNat + 8 → ¬ lettersOnly s.typeCode →
        exec (.ser init) s = .next (s.failedWith .invalidType)))

/-- A PARSE of a window that starts with the frame of a type of letters and a payload completes: the result registers describe
the frame, BUF and everything else keep, STATUS shows success. Bytes after the frame are not read, written or not (R184,
R142, log entry 7). -/
def Obligations.ParseCompletes : Prop :=
  ∀ (init : Bool) (s : State) (type : TypeCode) (data : List Byte),
    type.alpha = true → data.length < 2 ^ 32 → s.buf.holds s.src.toNat (serializeBytes type data) →
    12 + data.length ≤ s.len.toNat → s.src.toNat + s.len.toNat ≤ 2 ^ s.params.bufLog2.toNat →
    exec (.parse init) s = .next { s with
      resLen := BitVec.ofNat 32 data.length
      resType := type.pack
      resCrc := chunkCrc type data
      resData := BitVec.ofNat 32 (s.src.toNat + 8)
      resSize := BitVec.ofNat 32 (12 + data.length)
      phase := .idle
      status := s.status.succeeded }

/-- The errors of PARSE, each with its condition, in the order R263 gives: RANGE, TRUNCATED (LEN < 8), INVALID_TYPE, TRUNCATED
(LEN < 12 + L), CRC_MISMATCH (R184, R261). The bytes of the window a check does not look at need not be written: the model's
lazy reads, log entry 7. -/
def Obligations.ParseErrorsInOrder : Prop :=
  ∀ (init : Bool) (s : State),
    (2 ^ s.params.bufLog2.toNat < s.src.toNat + s.len.toNat → exec (.parse init) s = .next (s.failedWith .range)) ∧
    (s.src.toNat + s.len.toNat ≤ 2 ^ s.params.bufLog2.toNat →
      (s.len.toNat < 8 → exec (.parse init) s = .next (s.failedWith .truncated)) ∧
      (∀ (l : Word) (type : TypeCode), 8 ≤ s.len.toNat → s.buf.holds s.src.toNat (be32 l ++ type.bytes) →
        (type.alpha = false → exec (.parse init) s = .next (s.failedWith .invalidType)) ∧
        (type.alpha = true → s.len.toNat < 12 + l.toNat → exec (.parse init) s = .next (s.failedWith .truncated)) ∧
        (∀ (data : List Byte) (crc : Word), type.alpha = true → 12 + l.toNat ≤ s.len.toNat → data.length = l.toNat →
          s.buf.holds (s.src.toNat + 8) (data ++ be32 crc) → crc ≠ chunkCrc type data →
          exec (.parse init) s = .next (s.failedWith .crcMismatch))))

/-- PARSE is `parse_bytes` of its window (R184): with the whole window written, the lazy reads of the model (log entry 7) make
no difference. -/
def Obligations.ParseRefinesParseBytes : Prop :=
  ∀ (init : Bool) (s : State) (window : List Byte),
    s.len.toNat = window.length → s.src.toNat + s.len.toNat ≤ 2 ^ s.params.bufLog2.toNat →
    s.buf.holds s.src.toNat window →
    (∀ c, parseBytes window = .error c → exec (.parse init) s = .next (s.failedWith c)) ∧
    (∀ chunk, parseBytes window = .ok chunk →
      exec (.parse init) s = .next { s with
        resLen := chunk.len
        resType := chunk.type.pack
        resCrc := chunk.crc
        resData := BitVec.ofNat 32 (s.src.toNat + 8)
        resSize := BitVec.ofNat 32 (12 + chunk.len.toNat)
        phase := .idle
        status := s.status.succeeded })

/-- R185: what SER wrote, PARSE reads back, with the payload in place. -/
def Obligations.SerThenParse : Prop :=
  ∀ (init init' : Bool) (s t : State) (data : List Byte) (n : Word),
    s.len.toNat = data.length → s.buf.holds s.src.toNat data →
    exec (.ser init) s = .next t → t.status.errCode = .ok →
    12 + data.length ≤ n.toNat → s.dst.toNat + n.toNat ≤ 2 ^ s.params.bufLog2.toNat →
    ∃ u, exec (.parse init') { t with src := s.dst, len := n } = .next u ∧ u.status.errCode = .ok ∧
      u.resLen.toNat = data.length ∧ u.resType = s.typeCode ∧ u.resCrc = chunkCrc (unpack s.typeCode) data ∧
      u.resData.toNat = s.dst.toNat + 8 ∧ u.resSize.toNat = 12 + data.length ∧ u.buf.holds (s.dst.toNat + 8) data

/-- R72: the length and CRC fields a SER writes and a PARSE accepts are big-endian numbers. -/
def Obligations.FieldsAreBigEndian : Prop :=
  ∀ (init : Bool) (s t : State), t.status.errCode = .ok →
    (exec (.ser init) s = .next t →
      t.buf.beNat s.dst.toNat = some s.len.toNat ∧
      t.buf.beNat (s.dst.toNat + 8 + s.len.toNat) = some t.resCrc.toNat) ∧
    (exec (.parse init) s = .next t →
      s.buf.beNat s.src.toNat = some t.resLen.toNat ∧
      s.buf.beNat (s.src.toNat + 8 + t.resLen.toNat) = some t.resCrc.toNat)

/-- R109: the CRC of a frame SER wrote or PARSE accepted is the CRC of its 4 type bytes and L data bytes, in wire order, and of
nothing else. -/
def Obligations.CrcCoversTypeAndData : Prop :=
  ∀ (init : Bool) (s t : State) (bytes : List Byte), t.status.errCode = .ok →
    (exec (.ser init) s = .next t → bytes.length = 4 + t.resLen.toNat → t.buf.holds (s.dst.toNat + 4) bytes →
      t.resCrc = crc32 bytes) ∧
    (exec (.parse init) s = .next t → bytes.length = 4 + t.resLen.toNat → s.buf.holds (s.src.toNat + 4) bytes →
      t.resCrc = crc32 bytes)

/-- SER and PARSE neither read nor write CRC_STATE and ignore INIT (R102, R180): with another CRC_STATE and another INIT the
outcome is the same but for CRC_STATE, which keeps. -/
def Obligations.FramerIgnoresCrcStateAndInit : Prop :=
  ∀ (init init' : Bool) (s : State) (c : Word),
    exec (.ser init') { s with crcState := c } = mapNext (fun t => { t with crcState := c }) (exec (.ser init) s) ∧
    exec (.parse init') { s with crcState := c } = mapNext (fun t => { t with crcState := c }) (exec (.parse init) s) ∧
    (∀ t, exec (.ser init) s = .next t ∨ exec (.parse init) s = .next t → t.crcState = s.crcState)

/-! ## The command engine -/

/-- R144: an illegal command completes with ILLEGAL_CMD in every state; any illegal word written while idle is accepted,
makes the engine busy and stays readable in CTRL, and its completion changes nothing but STATUS; 0x21 from reset completes
with STATUS = 0x106. -/
def Obligations.IllegalWordCompletes : Prop :=
  (∀ (word : Word) (s : State), exec (.illegal word) s = .next (s.failedWith .illegalCmd)) ∧
  (∀ (s : State) (v : Word),
    (v.toNat % 16 = 0 ∨ 4 ≤ v.toNat % 16 ∨ v.toNat / 32 ≠ 0) → s.phase = .idle →
    decodeCtrl v = .illegal v ∧
    ∃ t, exec (.wrCtrl v) s = .next t ∧ t.phase = .busy ∧ t.readReg .ctrl = v ∧
      exec (.illegal v) t = .next { s with
        ctrl := v
        answer := .okay
        status := { done := true, err := true, ovr := s.status.ovr, errCode := .illegalCmd } }) ∧
  (∃ t u, exec (.wrCtrl 0x21) State.reset = .next t ∧ exec (decodeCtrl t.ctrl) t = .next u ∧ u.readReg .status = 0x106)

/-- R143: a command that completes with a code other than OK changes only STATUS (and, with STATUS.BUSY, the phase). -/
def Obligations.FailureChangesOnlyStatus : Prop :=
  ∀ (i : Instr) (s t : State), i.isCommand = true → exec i s = .next t → t.status.errCode ≠ .ok →
    t = { s with phase := .idle, status := t.status }

/-- R142 and R268: a completion sets DONE, keeps OVR, and sets ERR on a failure and keeps it on a success; clearing ERR and
DONE keeps ERRCODE and drops `irq` unless OVR is pending and enabled. -/
def Obligations.CompletionStatusAndClearing : Prop :=
  (∀ (i : Instr) (s t : State), i.isCommand = true → exec i s = .next t →
    t.phase = .idle ∧ t.status.done = true ∧ t.status.ovr = s.status.ovr ∧
    (t.status.err = true ↔ s.status.err = true ∨ t.status.errCode ≠ .ok)) ∧
  (∀ s : State, ∃ t, exec (.wrStatus 0x6) s = .next t ∧ t.status.done = false ∧ t.status.err = false ∧
    t.status.errCode = s.status.errCode ∧ t.irq = (s.status.ovr && s.ier.ovrIe))

/-- What a completion leaves unchanged, whatever its code: CRC writes only CRC_STATE; SER only BUF bytes of its frame window and
the result registers; PARSE only the result registers; an illegal word nothing; each also STATUS and the phase. -/
def Obligations.CommandFrame : Prop :=
  ∀ (i : Instr) (s t : State), i.isCommand = true → exec i s = .next t →
    t.params = s.params ∧ t.ctrl = s.ctrl ∧ t.ier = s.ier ∧ t.src = s.src ∧ t.dst = s.dst ∧ t.len = s.len ∧
    t.typeCode = s.typeCode ∧ t.answer = s.answer ∧ t.events = s.events ∧ t.freeCount = s.freeCount ∧
    t.status.ovr = s.status.ovr ∧
    ((∀ init, i ≠ .crc init) → t.crcState = s.crcState) ∧
    ((∀ init, i ≠ .ser init ∧ i ≠ .parse init) →
      t.resLen = s.resLen ∧ t.resType = s.resType ∧ t.resCrc = s.resCrc ∧ t.resData = s.resData ∧ t.resSize = s.resSize) ∧
    ((∀ init, i ≠ .ser init) → t.buf = s.buf) ∧
    (∀ a, a < s.dst.toNat ∨ s.dst.toNat + 12 + s.len.toNat ≤ a → t.buf.read a = s.buf.read a)

/-- R43: which instruction can change which register, ERRCODE or byte. -/
def Obligations.OnlyNamedWritersChangeState : Prop :=
  ∀ (i : Instr) (s t : State), exec i s = .next t →
    (t.ctrl ≠ s.ctrl → ∃ v, i = .wrCtrl v ∨ i = .wr .ctrl v) ∧
    (t.ier ≠ s.ier → ∃ v, i = .wrIer v ∨ i = .wr .ier v) ∧
    (t.src ≠ s.src → ∃ v, i = .wrOperand .src v ∨ i = .wr .src v) ∧
    (t.dst ≠ s.dst → ∃ v, i = .wrOperand .dst v ∨ i = .wr .dst v) ∧
    (t.len ≠ s.len → ∃ v, i = .wrOperand .len v ∨ i = .wr .len v) ∧
    (t.typeCode ≠ s.typeCode → ∃ v, i = .wrOperand .typeCode v ∨ i = .wr .typeCode v) ∧
    (t.crcState ≠ s.crcState →
      (∃ init, i = .crc init) ∨ ∃ v, i = .wrOperand .crcState v ∨ i = .wr .crcState v) ∧
    ((t.resLen ≠ s.resLen ∨ t.resType ≠ s.resType ∨ t.resCrc ≠ s.resCrc ∨ t.resData ≠ s.resData ∨
      t.resSize ≠ s.resSize) → t.status.errCode = .ok ∧ ∃ init, i = .ser init ∨ i = .parse init) ∧
    (t.status.errCode ≠ s.status.errCode → i.isCommand = true) ∧
    (t.params = s.params ∧ t.events = s.events) ∧
    (∀ a, t.buf.read a ≠ s.buf.read a → (∃ w, i = .wb a w) ∨ ∃ init, i = .ser init)

/-- R140, over whole steps: only an accepted CTRL write makes an idle engine busy, only a completion or a reset makes it idle
again, and those two do. -/
def Obligations.PhaseLifecycle : Prop :=
  ∀ s t : State, step s = .next t →
    (s.phase = .idle → t.phase = .busy →
      ∃ r rest v, s.events = .host r :: rest ∧ decodeRequest s.params r = .ok (.wrCtrl v) ∧ t.ctrl = v) ∧
    (s.phase = .busy → t.phase = .idle →
      (∃ rest, s.events = .reset :: rest) ∨
        ((s.events = [] ∨ ∃ rest, s.events = .engine :: rest) ∧ t.status.done = true)) ∧
    (∀ r rest v, s.events = .host r :: rest → decodeRequest s.params r = .ok (.wrCtrl v) → t.phase = .busy) ∧
    (∀ rest, s.events = .reset :: rest → t.phase = .idle) ∧
    (∀ rest, s.events = .engine :: rest → t.phase = .idle)

/-- R83(c): a step from busy to busy changes none of the pending command's inputs. -/
def Obligations.InputsFixedWhileBusy : Prop :=
  ∀ s t : State, step s = .next t → s.phase = .busy → t.phase = .busy →
    t.ctrl = s.ctrl ∧ t.src = s.src ∧ t.dst = s.dst ∧ t.len = s.len ∧ t.typeCode = s.typeCode ∧
    t.crcState = s.crcState ∧ t.buf = s.buf

/-- R145: a command no reset interrupts completes. In the model it does so within one step more than the inputs still to come,
unless the host reads an unwritten byte first or the command itself does; the bound is the model's schedule (log entry 2). -/
def Obligations.PendingCommandCompletes : Prop :=
  ∀ s : State, s.phase = .busy → (∀ e ∈ s.events, e ≠ .reset) →
    ∃ k, k ≤ s.events.length + 1 ∧
      ((∃ t, Host.Core.run Sys2Proof.core k s = .next t ∧ t.phase = .idle ∧ t.status.done = true) ∨
        ∃ x, Host.Core.run Sys2Proof.core k s = .fault (.unwrittenByte x))

/-- R77: a command reads no byte outside the windows it names. With any other BUF that agrees on the window [SRC, SRC + LEN),
its outcome is the same in everything but BUF. -/
def Obligations.CommandsReadOnlyTheirWindow : Prop :=
  ∀ (i : Instr) (s : State) (m : Memory), i.isCommand = true →
    (∀ a, s.src.toNat ≤ a → a < s.src.toNat + s.len.toNat → m.read a = s.buf.read a) →
    mapNext (fun t => { t with buf := [] }) (exec i { s with buf := m }) =
      mapNext (fun t => { t with buf := [] }) (exec i s)

/-- R303: a command that must read a byte nothing has written stops the model, and names such a byte of its window: CRC any
byte of its window, SER any byte of its payload, PARSE any byte of the header and then any byte of the frame. Which bytes
PARSE must read, and that the stop names the lowest of them, is the model's (log entries 7 and 8). -/
def Obligations.CommandOnUnwrittenWindowFaults : Prop :=
  ∀ (init : Bool) (s : State) (x : Nat),
    s.src.toNat + s.len.toNat ≤ 2 ^ s.params.bufLog2.toNat →
    s.src.toNat ≤ x → x < s.src.toNat + s.len.toNat → s.buf.read x = none →
    (∃ y, exec (.crc init) s = .fault (.unwrittenByte y) ∧ s.buf.read y = none ∧ s.src.toNat ≤ y ∧ y ≤ x) ∧
    (s.dst.toNat + 12 + s.len.toNat ≤ 2 ^ s.params.bufLog2.toNat → lettersOnly s.typeCode →
      (s.src.toNat + s.len.toNat ≤ s.dst.toNat ∨ s.dst.toNat + 12 + s.len.toNat ≤ s.src.toNat ∨
        s.src.toNat = s.dst.toNat + 8) →
      ∃ y, exec (.ser init) s = .fault (.unwrittenByte y) ∧ s.buf.read y = none ∧ s.src.toNat ≤ y ∧ y ≤ x) ∧
    (8 ≤ s.len.toNat → x < s.src.toNat + 8 →
      ∃ y, exec (.parse init) s = .fault (.unwrittenByte y) ∧ s.buf.read y = none ∧ s.src.toNat ≤ y ∧ y ≤ x) ∧
    (∀ (l : Word) (type : TypeCode), s.buf.holds s.src.toNat (be32 l ++ type.bytes) → type.alpha = true →
      12 + l.toNat ≤ s.len.toNat → x < s.src.toNat + 12 + l.toNat →
      ∃ y, exec (.parse init) s = .fault (.unwrittenByte y) ∧ s.buf.read y = none ∧ s.src.toNat + 8 ≤ y ∧ y ≤ x)

/-! ## The host bus -/

/-- RD completes for each of the sixteen registers, busy or not: the answer is the register's value, nothing else changes
(R210, R79). The registers software wrote or the engine wrote read as they are. -/
def Obligations.RdAnswersRegister : Prop :=
  (∀ (r : Reg) (s : State), exec (.rd r) s = .next { s with answer := .okayWord (s.readReg r) }) ∧
  (∀ s : State,
    s.readReg .ctrl = s.ctrl ∧ s.readReg .src = s.src ∧ s.readReg .dst = s.dst ∧ s.readReg .len = s.len ∧
    s.readReg .typeCode = s.typeCode ∧ s.readReg .crcState = s.crcState ∧ s.readReg .resLen = s.resLen ∧
    s.readReg .resType = s.resType ∧ s.readReg .resCrc = s.resCrc ∧ s.readReg .resData = s.resData ∧
    s.readReg .resSize = s.resSize)

/-- The bits STATUS and IER read as, reserved bits 0 (R23, R24, R111). -/
def Obligations.StatusAndIerBits : Prop :=
  ∀ s : State,
    (s.readReg .status).toNat =
      (if s.phase = .busy then 1 else 0) + (if s.status.done then 2 else 0) + (if s.status.err then 4 else 0) +
        (if s.status.ovr then 8 else 0) +
        256 * s.status.errCode.number ∧
    (s.readReg .ier).toNat =
      (if s.ier.doneIe then 1 else 0) + (if s.ier.errIe then 2 else 0) + (if s.ier.ovrIe then 4 else 0)

/-- R211: the plain register write is the dispatch by register; a read-only register ignores it, answered OKAY, also while
busy. -/
def Obligations.WrDispatches : Prop :=
  ∀ (v : Word) (s : State),
    exec (.wr .ctrl v) s = exec (.wrCtrl v) s ∧ exec (.wr .status v) s = exec (.wrStatus v) s ∧
    exec (.wr .ier v) s = exec (.wrIer v) s ∧ (∀ r : OperandReg, exec (.wr r.reg v) s = exec (.wrOperand r v) s) ∧
    (∀ r ∈ [Reg.crcResult, .flags, .resLen, .resType, .resCrc, .resData, .resSize, .cfg],
      exec (.wr r v) s = .next { s with answer := .okay })

/-- R141: a CTRL write while idle issues any word, legal or not; one while busy is dropped. -/
def Obligations.CtrlWriteIssues : Prop :=
  ∀ (v : Word) (s : State),
    (s.phase = .idle →
      exec (.wrCtrl v) s = .next { s with
        ctrl := v
        phase := .busy
        status := { done := false, err := s.status.err, ovr := s.status.ovr, errCode := s.status.errCode }
        answer := .okay }) ∧
    (s.phase = .busy →
      exec (.wrCtrl v) s = .next { s with
        status := { done := s.status.done, err := s.status.err, ovr := true, errCode := s.status.errCode }
        answer := .okay })

/-- A STATUS write clears exactly DONE, ERR and OVR where bits 1, 2 and 3 of the word are 1, at any time, and changes nothing
else (R213); 0x4 turns 0x506 into 0x502. -/
def Obligations.StatusWriteOneToClear : Prop :=
  (∀ (v : Word) (s : State), ∃ t, exec (.wrStatus v) s = .next t ∧
    (∀ j, (t.readReg .status).getLsbD j =
      ((s.readReg .status).getLsbD j && !(decide (1 ≤ j ∧ j ≤ 3) && v.getLsbD j))) ∧
    t = { s with status := t.status, answer := .okay }) ∧
  (∀ s : State, s.readReg .status = 0x506 → ∃ t, exec (.wrStatus 0x4) s = .next t ∧ t.readReg .status = 0x502)

/-- R214: IER takes the low three bits of the word, at any time; `irq` follows at once, and nothing else changes. -/
def Obligations.IerWriteKeepsThreeBits : Prop :=
  ∀ (v : Word) (s : State), ∃ t, exec (.wrIer v) s = .next t ∧ t.readReg .ier = v &&& 0x00000007 ∧
    t = { s with ier := t.ier, answer := .okay } ∧
    (t.irq = true ↔
      (s.status.done = true ∧ v.getLsbD 0 = true) ∨ (s.status.err = true ∧ v.getLsbD 1 = true) ∨
        (s.status.ovr = true ∧ v.getLsbD 2 = true))

/-- An operand register write while idle stores the word, SRC and DST its value modulo BUF_SIZE, and changes nothing else
(R215, R25, R26). -/
def Obligations.OperandWriteStores : Prop :=
  ∀ (v : Word) (s : State), s.phase = .idle →
    (∃ a : Word, a.toNat = v.toNat % 2 ^ s.params.bufLog2.toNat ∧
      exec (.wrOperand .src v) s = .next { s with src := a, answer := .okay } ∧
      exec (.wrOperand .dst v) s = .next { s with dst := a, answer := .okay }) ∧
    exec (.wrOperand .len v) s = .next { s with len := v, answer := .okay } ∧
    exec (.wrOperand .typeCode v) s = .next { s with typeCode := v, answer := .okay } ∧
    exec (.wrOperand .crcState v) s = .next { s with crcState := v, answer := .okay }

/-- A BUF read answers the byte last written, changes nothing else, and stops the model where nothing was written; inside a
pending legal SER's window it answers some byte, written or not, and no statement says which (R216, R84, R303; the stop and
the drawn byte are log entries 6 and 9). -/
def Obligations.RbAnswersByte : Prop :=
  ∀ (a : Nat) (s : State), a < 2 ^ s.params.bufLog2.toNat →
    ((s.phase = .busy ∧ (s.ctrl = 0x02 ∨ s.ctrl = 0x12) ∧ s.dst.toNat ≤ a ∧ a < s.dst.toNat + 12 + s.len.toNat) →
      ∃ b, exec (.rb a) s = .next { s with answer := .okayByte b, freeCount := s.freeCount + 1 }) ∧
    (¬ (s.phase = .busy ∧ (s.ctrl = 0x02 ∨ s.ctrl = 0x12) ∧ s.dst.toNat ≤ a ∧ a < s.dst.toNat + 12 + s.len.toNat) →
      (∀ b, s.buf.read a = some b → exec (.rb a) s = .next { s with answer := .okayByte b }) ∧
      (s.buf.read a = none → exec (.rb a) s = .fault (.unwrittenByte a)))

/-- A BUF write while idle stores its byte and changes no other byte and nothing else (R217). -/
def Obligations.WbStoresByte : Prop :=
  ∀ (a : Nat) (w : Byte) (s : State), a < 2 ^ s.params.bufLog2.toNat → s.phase = .idle →
    ∃ t, exec (.wb a w) s = .next t ∧ t.buf.read a = some w ∧ (∀ x, x ≠ a → t.buf.read x = s.buf.read x) ∧
      t = { s with buf := t.buf, answer := .okay }

/-- R218: while busy, writes to CTRL, the operand registers and BUF only set OVR and are answered OKAY; no write to STATUS, IER
or a read-only register and no read sets OVR, and the writes to STATUS and IER are performed. -/
def Obligations.DropWhileBusy : Prop :=
  ∀ s : State, s.phase = .busy →
    (∀ i, ((∃ v, i = .wrCtrl v) ∨ (∃ r v, i = .wrOperand r v) ∨
        (∃ a w, i = .wb a w ∧ a < 2 ^ s.params.bufLog2.toNat)) →
      exec i s = .next { s with
        status := { done := s.status.done, err := s.status.err, ovr := true, errCode := s.status.errCode }
        answer := .okay }) ∧
    (∀ i t, ((∃ v, i = .wrStatus v) ∨ (∃ v, i = .wrIer v) ∨ (∃ r v, i = .wr r v ∧ r.readOnly = true) ∨
        (∃ r, i = .rd r) ∨ (∃ a, i = .rb a)) →
      exec i s = .next t → t.status.ovr = true → s.status.ovr = true) ∧
    (∀ v, ∃ t, exec (.wrIer v) s = .next t ∧ t.readReg .ier = v &&& 0x7) ∧
    (∀ v, ∃ t, exec (.wrStatus v) s = .next t ∧ t.readReg .status = s.readReg .status &&& ~~~(v &&& 0xE))

/-- R219: a REG access of size other than 4 or at an offset that is no multiple of 4, and a BUF access of size other than 1,
decodes to a bus error; a bus error is answered ERROR, with no data, and changes nothing. -/
def Obligations.BusErrorChangesNothing : Prop :=
  (∀ (p : Params) (t : Transaction),
    ((t.space = .reg ∧ (t.access.size ≠ .four ∨ t.offset % 4 ≠ 0)) ∨ (t.space = .buf ∧ t.access.size ≠ .one)) →
    decode p (.transaction t) = .busError t) ∧
  (∀ (t : Transaction) (s : State), exec (.busError t) s = .next { s with answer := .error })

/-- R39: `irq` from the words STATUS and IER read as: enable bit j masks STATUS bit j + 1. -/
def Obligations.IrqIsEnabledPending : Prop :=
  ∀ s : State, s.irq = true ↔
    ∃ j, j < 3 ∧ (s.readReg .status).getLsbD (j + 1) = true ∧ (s.readReg .ier).getLsbD j = true
end

