-- ==== Sys2Proof/Laws/Decode.lean ====
section
/-! SUPPORT. The register map and the field layout of CTRL words, once. -/

namespace Sys2Proof

@[simp] theorem Reg.ofOffset_offset (r : Reg) : Reg.ofOffset r.offset = some r := by cases r <;> rfl

/-- The map has no two registers at one offset and none anywhere else (R105). -/
theorem Reg.ofOffset_eq_some {o : Nat} {r : Reg} : Reg.ofOffset o = some r ↔ o = r.offset := by
  constructor
  · intro h
    unfold Reg.ofOffset at h
    split at h <;> first | (injection h with h; subst h; rfl) | cases h
  · rintro rfl; exact Reg.ofOffset_offset r

/-- An offset holds a register exactly when it is a multiple of 4 below 64 (R105: "the aperture has no hole"). -/
theorem Reg.ofOffset_isSome (o : Nat) : (Reg.ofOffset o).isSome = true ↔ o % 4 = 0 ∧ o < 64 := by
  constructor
  · intro h
    obtain ⟨r, hr⟩ := Option.isSome_iff_exists.1 h
    rw [Reg.ofOffset_eq_some] at hr
    subst hr
    cases r <;> decide
  · rintro ⟨h4, h64⟩
    have key : ∀ k : Fin 64, k.val % 4 = 0 → (Reg.ofOffset k.val).isSome = true := by decide
    exact key ⟨o, h64⟩ h4

/-- What a CTRL word decodes to, by its fields. -/
theorem decodeCtrl_cases (v : Word) :
    (v.extractLsb' 5 27 = 0 ∧
      ((v.extractLsb' 0 4 = 1 ∧ decodeCtrl v = .crc (v.getLsbD 4)) ∨
        (v.extractLsb' 0 4 = 2 ∧ decodeCtrl v = .ser (v.getLsbD 4)) ∨
        (v.extractLsb' 0 4 = 3 ∧ decodeCtrl v = .parse (v.getLsbD 4)))) ∨
    ((v.extractLsb' 5 27 ≠ 0 ∨ (v.extractLsb' 0 4 ≠ 1 ∧ v.extractLsb' 0 4 ≠ 2 ∧ v.extractLsb' 0 4 ≠ 3)) ∧
      decodeCtrl v = .illegal v) := by
  simp only [decodeCtrl]
  split
  · exact .inr ⟨.inl ‹_›, rfl⟩
  · rename_i h0
    rw [not_not] at h0
    split
    · exact .inl ⟨h0, .inl ⟨‹_›, rfl⟩⟩
    · split
      · exact .inl ⟨h0, .inr (.inl ⟨‹_›, rfl⟩)⟩
      · split
        · exact .inl ⟨h0, .inr (.inr ⟨‹_›, rfl⟩)⟩
        · exact .inr ⟨.inr ⟨‹_›, ‹_›, ‹_›⟩, rfl⟩

/-- A CTRL word decodes to a command. -/
@[simp] theorem decodeCtrl_isCommand (v : Word) : (decodeCtrl v).isCommand = true := by
  rcases decodeCtrl_cases v with ⟨-, ⟨-, h⟩ | ⟨-, h⟩ | ⟨-, h⟩⟩ | ⟨-, h⟩ <;> rw [h] <;> rfl

/-- What a tuple decodes to (R106): a legal register access, a legal byte access, or a bus error. -/
theorem decodeTransaction_cases (p : Params) (t : Transaction) :
    (∃ r : Reg, t.space = .reg ∧ t.offset = r.offset ∧
      ((t.access = .read .four ∧ decodeTransaction p t = .rd r) ∨
        ∃ v, t.access = .write4 v ∧ decodeTransaction p t = decodeRegWrite r v)) ∨
    (t.space = .buf ∧ t.offset < p.bufSize ∧
      ((t.access = .read .one ∧ decodeTransaction p t = .rb t.offset) ∨
        ∃ w, t.access = .write1 w ∧ decodeTransaction p t = .wb t.offset w)) ∨
    (t.legal p = false ∧ decodeTransaction p t = .busError t) := by
  obtain ⟨space, o, acc⟩ := t
  have hn := Reg.ofOffset_isSome o
  cases space with
  | reg =>
    cases ho : Reg.ofOffset o with
    | some r =>
      have hr := Reg.ofOffset_eq_some.1 ho
      cases acc with
      | read n =>
        cases n with
        | four => exact .inl ⟨r, rfl, hr, .inl ⟨rfl, by simp [decodeTransaction, ho]⟩⟩
        | one | two => exact .inr (.inr ⟨by simp [Transaction.legal, Access.size], rfl⟩)
      | write1 w | write2 w => exact .inr (.inr ⟨by simp [Transaction.legal, Access.size], rfl⟩)
      | write4 v => exact .inl ⟨r, rfl, hr, .inr ⟨v, rfl, by simp [decodeTransaction, ho]⟩⟩
    | none =>
      have hl : ¬ (o % 4 = 0 ∧ o < 64) := by rw [← hn, ho]; decide
      right; right
      refine ⟨by simp [Transaction.legal]; omega, ?_⟩
      cases acc with
      | read n => cases n <;> simp [decodeTransaction, ho]
      | write1 w | write2 w | write4 w => simp [decodeTransaction, ho]
  | buf =>
    by_cases ha : o < p.bufSize
    · cases acc with
      | read n =>
        cases n with
        | one => exact .inr (.inl ⟨rfl, ha, .inl ⟨rfl, by simp [decodeTransaction, ha]⟩⟩)
        | two | four => exact .inr (.inr ⟨by simp [Transaction.legal, Access.size], rfl⟩)
      | write1 w => exact .inr (.inl ⟨rfl, ha, .inr ⟨w, rfl, by simp [decodeTransaction, ha]⟩⟩)
      | write2 w | write4 w => exact .inr (.inr ⟨by simp [Transaction.legal, Access.size], rfl⟩)
    · right; right
      refine ⟨by simp [Transaction.legal, ha], ?_⟩
      cases acc with
      | read n => cases n <;> simp [decodeTransaction, ha]
      | write1 w | write2 w | write4 w => simp [decodeTransaction, ha]

/-- A request that reaches the block decodes as the tuple of its aperture (R70). -/
theorem decodeRequest_eq_ok {p : Params} {r : Request} {i : Instr} (h : decodeRequest p r = .ok i) :
    ∃ space offset, select p r.addr = some (space, offset) ∧ i = decode p (.transaction ⟨space, offset, r.access⟩) := by
  unfold decodeRequest at h
  split at h
  · rename_i space offset hs
    injection h with h
    exact ⟨space, offset, hs, h.symm⟩
  · cases h

end Sys2Proof
end

