-- ==== Sys2Proof/Laws/Memory.lean ====
section
/-! SUPPORT. The laws of BUF: a read after a write, the canonical form, and the window reads and writes. -/

namespace Sys2Proof.Machine

namespace Memory

@[simp] theorem read_nil (a : Nat) : Memory.read [] a = none := rfl

theorem read_write_same (m : Memory) (a : Nat) (w : Byte) : (m.write a w).read a = some w := by
  induction m with
  | nil => simp [Memory.write, Memory.read]
  | cons c m ih =>
    obtain ⟨k, b⟩ := c
    simp only [Memory.write]
    split
    · simp [Memory.read]
    · split
      · simp [Memory.read]
      · rename_i h; simp [Memory.read, h, ih]

theorem read_write_other (m : Memory) {a x : Nat} (w : Byte) (h : x ≠ a) : (m.write a w).read x = m.read x := by
  induction m with
  | nil => simp [Memory.write, Memory.read, h]
  | cons c m ih =>
    obtain ⟨k, b⟩ := c
    simp only [Memory.write]
    split
    · simp [Memory.read, h]
    · split
      · rename_i hk; simp [Memory.read, h, ← hk]
      · simp [Memory.read, ih]

/-- One byte of BUF after a write. -/
@[simp] theorem read_write (m : Memory) (a x : Nat) (w : Byte) :
    (m.write a w).read x = if x = a then some w else m.read x := by
  split
  · subst x; exact read_write_same m a w
  · exact read_write_other m w ‹_›

/-- A write adds no address but its own. -/
theorem mem_write {m : Memory} {a : Nat} {w : Byte} {c : Host.Cell} (h : c ∈ m.write a w) : c = (a, w) ∨ c ∈ m := by
  induction m with
  | nil => simpa [Memory.write] using h
  | cons d m ih =>
    obtain ⟨k, b⟩ := d
    simp only [Memory.write] at h
    split at h
    · simpa using h
    · split at h
      · rcases List.mem_cons.1 h with h | h
        · exact .inl h
        · exact .inr (List.mem_cons_of_mem _ h)
      · rcases List.mem_cons.1 h with h | h
        · exact .inr (h ▸ List.mem_cons_self)
        · exact (ih h).imp_right (List.mem_cons_of_mem _)

/-- A write keeps the canonical form. -/
theorem write_wf {m : Memory} (a : Nat) (w : Byte) (h : m.wf) : (m.write a w).wf := by
  induction m with
  | nil => simp [Memory.write]
  | cons c m ih =>
    obtain ⟨k, b⟩ := c
    have hc := List.pairwise_cons.1 h
    simp only [Memory.write]
    split
    · rename_i hk
      refine List.pairwise_cons.2 ⟨fun y hy => ?_, h⟩
      rcases List.mem_cons.1 hy with rfl | hy
      · exact hk
      · exact Nat.lt_trans hk (hc.1 y hy)
    · split
      · rename_i hk
        subst hk
        exact List.pairwise_cons.2 ⟨hc.1, hc.2⟩
      · refine List.pairwise_cons.2 ⟨fun y hy => ?_, ih hc.2⟩
        rcases mem_write hy with rfl | hy
        · show k < a; omega
        · exact hc.1 y hy

/-- A write inside BUF keeps every byte inside BUF. -/
theorem write_below {m : Memory} {size a : Nat} (w : Byte) (ha : a < size) (h : m.below size = true) :
    (m.write a w).below size = true := by
  simp only [Memory.below, List.all_eq_true, decide_eq_true_eq] at *
  intro c hc
  rcases mem_write hc with rfl | hc
  · exact ha
  · exact h c hc

/-- A window write keeps the canonical form. -/
theorem writeBytes_wf (bytes : List Byte) : ∀ {m : Memory} (a : Nat), m.wf → (m.writeBytes a bytes).wf := by
  induction bytes with
  | nil => exact fun _ h => h
  | cons b bs ih => exact fun a h => ih (a + 1) (write_wf a b h)

/-- A window write inside BUF keeps every byte inside BUF. -/
theorem writeBytes_below (bytes : List Byte) : ∀ {m : Memory} {size : Nat} (a : Nat), a + bytes.length ≤ size →
    m.below size = true → (m.writeBytes a bytes).below size = true := by
  induction bytes with
  | nil => exact fun _ _ h => h
  | cons b bs ih =>
    intro m size a ha h
    have ha : a + (bs.length + 1) ≤ size := ha
    exact ih (a + 1) (by omega) (write_below b (by omega) h)

/-- One byte of BUF after a window write: the byte of the window, or what was there. -/
theorem read_writeBytes (bytes : List Byte) : ∀ (m : Memory) (a x : Nat),
    (m.writeBytes a bytes).read x =
      if h : a ≤ x ∧ x - a < bytes.length then some (bytes[x - a]'h.2) else m.read x := by
  induction bytes with
  | nil => intro m a x; simp [Memory.writeBytes]
  | cons b bs ih =>
    intro m a x
    rw [Memory.writeBytes, ih, read_write]
    by_cases hx : x = a
    · subst hx; simp [show ¬ x + 1 ≤ x by omega]
    · by_cases hle : a + 1 ≤ x
      · obtain ⟨k, rfl⟩ : ∃ k, x = a + 1 + k := ⟨x - (a + 1), by omega⟩
        have e : a + 1 + k - a = k + 1 := by omega
        simp [e, show a ≤ a + 1 + k by omega, show a + 1 + k ≠ a by omega]
      · simp [hle, hx, show ¬ a ≤ x by omega]

/-- After a window write the window holds the bytes. -/
theorem writeBytes_holds (m : Memory) (a : Nat) (bytes : List Byte) : (m.writeBytes a bytes).holds a bytes := by
  intro k hk
  simp [read_writeBytes, hk]

/-- Outside the window nothing changes. -/
theorem read_writeBytes_outside (m : Memory) {a x : Nat} (bytes : List Byte) (h : x < a ∨ a + bytes.length ≤ x) :
    (m.writeBytes a bytes).read x = m.read x := by
  rw [read_writeBytes, dif_neg]; omega

/-- A window read succeeds exactly with the written bytes of the window. -/
theorem readBytes_eq_ok {m : Memory} {n : Nat} : ∀ {a : Nat} {bytes : List Byte},
    m.readBytes a n = .ok bytes ↔ bytes.length = n ∧ m.holds a bytes := by
  induction n with
  | zero =>
    intro a bytes
    simp only [Memory.readBytes, Except.ok.injEq, List.length_eq_zero_iff]
    exact ⟨fun h => ⟨h.symm, by subst h; intro k hk; cases hk⟩, fun h => h.1.symm⟩
  | succ n ih =>
    intro a bytes
    rw [Memory.readBytes]
    cases hr : m.read a with
    | none =>
      simp only [reduceCtorEq, false_iff, not_and]
      intro hl hh
      have := hh 0 (by omega)
      simp [hr] at this
    | some b =>
      cases bytes with
      | nil => cases hq : m.readBytes (a + 1) n <;> simp
      | cons c cs =>
        have key : m.holds a (c :: cs) ↔ b = c ∧ m.holds (a + 1) cs := by
          constructor
          · intro h
            refine ⟨?_, fun k hk => ?_⟩
            · have := h 0 (by simp)
              rw [Nat.add_zero, hr] at this
              exact Option.some.inj this
            have := h (k + 1) (by simpa using hk)
            simpa [Nat.add_assoc, Nat.add_comm 1 k] using this
          · rintro ⟨rfl, h⟩ k hk
            cases k with
            | zero => simpa using hr
            | succ k =>
              have := h k (by simpa using hk)
              simpa [Nat.add_assoc, Nat.add_comm 1 k] using this
        rw [key]
        cases hq : m.readBytes (a + 1) n with
        | error x =>
          simp only [reduceCtorEq, false_iff]
          rintro ⟨hl, -, hh⟩
          have := ih.2 ⟨by simpa using hl, hh⟩
          simp [hq] at this
        | ok bs =>
          simp only [Except.ok.injEq, List.cons.injEq, List.length_cons, Nat.add_right_cancel_iff]
          have h2 : bs = cs ↔ cs.length = n ∧ m.holds (a + 1) cs := by
            rw [← ih, hq]; simp
          rw [h2, and_left_comm]

/-- A window read that stops names the lowest unwritten byte of the window. -/
theorem readBytes_eq_error {m : Memory} {n : Nat} : ∀ {a x : Nat},
    m.readBytes a n = .error x ↔ a ≤ x ∧ x < a + n ∧ m.read x = none ∧ ∀ y, a ≤ y → y < x → m.read y ≠ none := by
  induction n with
  | zero => intro a x; simp only [Memory.readBytes, reduceCtorEq, false_iff]; omega
  | succ n ih =>
    intro a x
    rw [Memory.readBytes]
    cases hr : m.read a with
    | none =>
      simp only [Except.error.injEq]
      constructor
      · rintro rfl; exact ⟨Nat.le_refl _, by omega, hr, fun y h1 h2 => by omega⟩
      · rintro ⟨h1, h2, h3, h4⟩
        rcases Nat.lt_or_eq_of_le h1 with hlt | rfl
        · exact absurd hr (h4 a (Nat.le_refl _) hlt)
        · rfl
    | some b =>
      have hx : (m.readBytes (a + 1) n = .error x) ↔
          (a ≤ x ∧ x < a + (n + 1) ∧ m.read x = none ∧ ∀ y, a ≤ y → y < x → m.read y ≠ none) := by
        rw [ih]
        constructor
        · rintro ⟨h1, h2, h3, h4⟩
          refine ⟨by omega, by omega, h3, fun y hy1 hy2 => ?_⟩
          by_cases hya : y = a
          · subst hya; simp [hr]
          · exact h4 y (by omega) hy2
        · rintro ⟨h1, h2, h3, h4⟩
          have : x ≠ a := by rintro rfl; simp [hr] at h3
          exact ⟨by omega, by omega, h3, fun y hy1 hy2 => h4 y (by omega) hy2⟩
      rw [← hx]
      cases hq : m.readBytes (a + 1) n <;> simp

/-- Two memories that agree on a window read it alike. -/
theorem readBytes_congr {m m' : Memory} {n : Nat} : ∀ {a : Nat}, (∀ x, a ≤ x → x < a + n → m.read x = m'.read x) →
    m.readBytes a n = m'.readBytes a n := by
  induction n with
  | zero => exact fun _ => rfl
  | succ n ih =>
    intro a h
    rw [Memory.readBytes, Memory.readBytes, h a (Nat.le_refl _) (by omega), ih fun x h1 h2 => h x (by omega) (by omega)]

end Memory

end Sys2Proof.Machine
end

