-- ==== Sys2Proof/Laws/State.lean ====
section
/-! SUPPORT. What each named update of State leaves in each field, by `rfl`, so that no proof unfolds an update. -/

namespace Sys2Proof.Machine

variable (s : State)

/-! `Status.completed` and `Status.cleared` -/

@[simp] theorem Status.completed_done (st : Status) (c : ErrCode) : (st.completed c).done = true := rfl
@[simp] theorem Status.completed_ovr (st : Status) (c : ErrCode) : (st.completed c).ovr = st.ovr := rfl
@[simp] theorem Status.completed_errCode (st : Status) (c : ErrCode) : (st.completed c).errCode = c := rfl
@[simp] theorem Status.completed_err (st : Status) (c : ErrCode) : (st.completed c).err = (st.err || decide (c ≠ .ok)) := rfl
@[simp] theorem Status.cleared_done (st : Status) (v : Word) : (st.cleared v).done = (st.done && !v.getLsbD 1) := rfl
@[simp] theorem Status.cleared_err (st : Status) (v : Word) : (st.cleared v).err = (st.err && !v.getLsbD 2) := rfl
@[simp] theorem Status.cleared_ovr (st : Status) (v : Word) : (st.cleared v).ovr = (st.ovr && !v.getLsbD 3) := rfl
@[simp] theorem Status.cleared_errCode (st : Status) (v : Word) : (st.cleared v).errCode = st.errCode := rfl

/-! `State.answering` -/

@[simp] theorem State.answering_params (a : Answer) : (s.answering a).params = s.params := rfl
@[simp] theorem State.answering_phase (a : Answer) : (s.answering a).phase = s.phase := rfl
@[simp] theorem State.answering_ctrl (a : Answer) : (s.answering a).ctrl = s.ctrl := rfl
@[simp] theorem State.answering_status (a : Answer) : (s.answering a).status = s.status := rfl
@[simp] theorem State.answering_ier (a : Answer) : (s.answering a).ier = s.ier := rfl
@[simp] theorem State.answering_src (a : Answer) : (s.answering a).src = s.src := rfl
@[simp] theorem State.answering_dst (a : Answer) : (s.answering a).dst = s.dst := rfl
@[simp] theorem State.answering_len (a : Answer) : (s.answering a).len = s.len := rfl
@[simp] theorem State.answering_typeCode (a : Answer) : (s.answering a).typeCode = s.typeCode := rfl
@[simp] theorem State.answering_crcState (a : Answer) : (s.answering a).crcState = s.crcState := rfl
@[simp] theorem State.answering_resLen (a : Answer) : (s.answering a).resLen = s.resLen := rfl
@[simp] theorem State.answering_resType (a : Answer) : (s.answering a).resType = s.resType := rfl
@[simp] theorem State.answering_resCrc (a : Answer) : (s.answering a).resCrc = s.resCrc := rfl
@[simp] theorem State.answering_resData (a : Answer) : (s.answering a).resData = s.resData := rfl
@[simp] theorem State.answering_resSize (a : Answer) : (s.answering a).resSize = s.resSize := rfl
@[simp] theorem State.answering_buf (a : Answer) : (s.answering a).buf = s.buf := rfl
@[simp] theorem State.answering_answer (a : Answer) : (s.answering a).answer = a := rfl
@[simp] theorem State.answering_events (a : Answer) : (s.answering a).events = s.events := rfl
@[simp] theorem State.answering_freeCount (a : Answer) : (s.answering a).freeCount = s.freeCount := rfl

/-! `State.dropWrite` -/

@[simp] theorem State.dropWrite_params : (s.dropWrite).params = s.params := rfl
@[simp] theorem State.dropWrite_phase : (s.dropWrite).phase = s.phase := rfl
@[simp] theorem State.dropWrite_ctrl : (s.dropWrite).ctrl = s.ctrl := rfl
@[simp] theorem State.dropWrite_status : (s.dropWrite).status = { s.status with ovr := true } := rfl
@[simp] theorem State.dropWrite_ier : (s.dropWrite).ier = s.ier := rfl
@[simp] theorem State.dropWrite_src : (s.dropWrite).src = s.src := rfl
@[simp] theorem State.dropWrite_dst : (s.dropWrite).dst = s.dst := rfl
@[simp] theorem State.dropWrite_len : (s.dropWrite).len = s.len := rfl
@[simp] theorem State.dropWrite_typeCode : (s.dropWrite).typeCode = s.typeCode := rfl
@[simp] theorem State.dropWrite_crcState : (s.dropWrite).crcState = s.crcState := rfl
@[simp] theorem State.dropWrite_resLen : (s.dropWrite).resLen = s.resLen := rfl
@[simp] theorem State.dropWrite_resType : (s.dropWrite).resType = s.resType := rfl
@[simp] theorem State.dropWrite_resCrc : (s.dropWrite).resCrc = s.resCrc := rfl
@[simp] theorem State.dropWrite_resData : (s.dropWrite).resData = s.resData := rfl
@[simp] theorem State.dropWrite_resSize : (s.dropWrite).resSize = s.resSize := rfl
@[simp] theorem State.dropWrite_buf : (s.dropWrite).buf = s.buf := rfl
@[simp] theorem State.dropWrite_answer : (s.dropWrite).answer = .okay := rfl
@[simp] theorem State.dropWrite_events : (s.dropWrite).events = s.events := rfl
@[simp] theorem State.dropWrite_freeCount : (s.dropWrite).freeCount = s.freeCount := rfl

/-! `State.issue` -/

@[simp] theorem State.issue_params (v : Word) : (s.issue v).params = s.params := rfl
@[simp] theorem State.issue_phase (v : Word) : (s.issue v).phase = .busy := rfl
@[simp] theorem State.issue_ctrl (v : Word) : (s.issue v).ctrl = v := rfl
@[simp] theorem State.issue_status (v : Word) : (s.issue v).status = { s.status with done := false } := rfl
@[simp] theorem State.issue_ier (v : Word) : (s.issue v).ier = s.ier := rfl
@[simp] theorem State.issue_src (v : Word) : (s.issue v).src = s.src := rfl
@[simp] theorem State.issue_dst (v : Word) : (s.issue v).dst = s.dst := rfl
@[simp] theorem State.issue_len (v : Word) : (s.issue v).len = s.len := rfl
@[simp] theorem State.issue_typeCode (v : Word) : (s.issue v).typeCode = s.typeCode := rfl
@[simp] theorem State.issue_crcState (v : Word) : (s.issue v).crcState = s.crcState := rfl
@[simp] theorem State.issue_resLen (v : Word) : (s.issue v).resLen = s.resLen := rfl
@[simp] theorem State.issue_resType (v : Word) : (s.issue v).resType = s.resType := rfl
@[simp] theorem State.issue_resCrc (v : Word) : (s.issue v).resCrc = s.resCrc := rfl
@[simp] theorem State.issue_resData (v : Word) : (s.issue v).resData = s.resData := rfl
@[simp] theorem State.issue_resSize (v : Word) : (s.issue v).resSize = s.resSize := rfl
@[simp] theorem State.issue_buf (v : Word) : (s.issue v).buf = s.buf := rfl
@[simp] theorem State.issue_answer (v : Word) : (s.issue v).answer = s.answer := rfl
@[simp] theorem State.issue_events (v : Word) : (s.issue v).events = s.events := rfl
@[simp] theorem State.issue_freeCount (v : Word) : (s.issue v).freeCount = s.freeCount := rfl

/-! `State.finish` -/

@[simp] theorem State.finish_params (c : ErrCode) : (s.finish c).params = s.params := rfl
@[simp] theorem State.finish_phase (c : ErrCode) : (s.finish c).phase = .idle := rfl
@[simp] theorem State.finish_ctrl (c : ErrCode) : (s.finish c).ctrl = s.ctrl := rfl
@[simp] theorem State.finish_status (c : ErrCode) : (s.finish c).status = s.status.completed c := rfl
@[simp] theorem State.finish_ier (c : ErrCode) : (s.finish c).ier = s.ier := rfl
@[simp] theorem State.finish_src (c : ErrCode) : (s.finish c).src = s.src := rfl
@[simp] theorem State.finish_dst (c : ErrCode) : (s.finish c).dst = s.dst := rfl
@[simp] theorem State.finish_len (c : ErrCode) : (s.finish c).len = s.len := rfl
@[simp] theorem State.finish_typeCode (c : ErrCode) : (s.finish c).typeCode = s.typeCode := rfl
@[simp] theorem State.finish_crcState (c : ErrCode) : (s.finish c).crcState = s.crcState := rfl
@[simp] theorem State.finish_resLen (c : ErrCode) : (s.finish c).resLen = s.resLen := rfl
@[simp] theorem State.finish_resType (c : ErrCode) : (s.finish c).resType = s.resType := rfl
@[simp] theorem State.finish_resCrc (c : ErrCode) : (s.finish c).resCrc = s.resCrc := rfl
@[simp] theorem State.finish_resData (c : ErrCode) : (s.finish c).resData = s.resData := rfl
@[simp] theorem State.finish_resSize (c : ErrCode) : (s.finish c).resSize = s.resSize := rfl
@[simp] theorem State.finish_buf (c : ErrCode) : (s.finish c).buf = s.buf := rfl
@[simp] theorem State.finish_answer (c : ErrCode) : (s.finish c).answer = s.answer := rfl
@[simp] theorem State.finish_events (c : ErrCode) : (s.finish c).events = s.events := rfl
@[simp] theorem State.finish_freeCount (c : ErrCode) : (s.finish c).freeCount = s.freeCount := rfl

/-! `State.writeStatus` -/

@[simp] theorem State.writeStatus_params (v : Word) : (s.writeStatus v).params = s.params := rfl
@[simp] theorem State.writeStatus_phase (v : Word) : (s.writeStatus v).phase = s.phase := rfl
@[simp] theorem State.writeStatus_ctrl (v : Word) : (s.writeStatus v).ctrl = s.ctrl := rfl
@[simp] theorem State.writeStatus_status (v : Word) : (s.writeStatus v).status = s.status.cleared v := rfl
@[simp] theorem State.writeStatus_ier (v : Word) : (s.writeStatus v).ier = s.ier := rfl
@[simp] theorem State.writeStatus_src (v : Word) : (s.writeStatus v).src = s.src := rfl
@[simp] theorem State.writeStatus_dst (v : Word) : (s.writeStatus v).dst = s.dst := rfl
@[simp] theorem State.writeStatus_len (v : Word) : (s.writeStatus v).len = s.len := rfl
@[simp] theorem State.writeStatus_typeCode (v : Word) : (s.writeStatus v).typeCode = s.typeCode := rfl
@[simp] theorem State.writeStatus_crcState (v : Word) : (s.writeStatus v).crcState = s.crcState := rfl
@[simp] theorem State.writeStatus_resLen (v : Word) : (s.writeStatus v).resLen = s.resLen := rfl
@[simp] theorem State.writeStatus_resType (v : Word) : (s.writeStatus v).resType = s.resType := rfl
@[simp] theorem State.writeStatus_resCrc (v : Word) : (s.writeStatus v).resCrc = s.resCrc := rfl
@[simp] theorem State.writeStatus_resData (v : Word) : (s.writeStatus v).resData = s.resData := rfl
@[simp] theorem State.writeStatus_resSize (v : Word) : (s.writeStatus v).resSize = s.resSize := rfl
@[simp] theorem State.writeStatus_buf (v : Word) : (s.writeStatus v).buf = s.buf := rfl
@[simp] theorem State.writeStatus_answer (v : Word) : (s.writeStatus v).answer = .okay := rfl
@[simp] theorem State.writeStatus_events (v : Word) : (s.writeStatus v).events = s.events := rfl
@[simp] theorem State.writeStatus_freeCount (v : Word) : (s.writeStatus v).freeCount = s.freeCount := rfl

/-! `State.writeIer` -/

@[simp] theorem State.writeIer_params (v : Word) : (s.writeIer v).params = s.params := rfl
@[simp] theorem State.writeIer_phase (v : Word) : (s.writeIer v).phase = s.phase := rfl
@[simp] theorem State.writeIer_ctrl (v : Word) : (s.writeIer v).ctrl = s.ctrl := rfl
@[simp] theorem State.writeIer_status (v : Word) : (s.writeIer v).status = s.status := rfl
@[simp] theorem State.writeIer_ier (v : Word) : (s.writeIer v).ier = Ier.ofWord v := rfl
@[simp] theorem State.writeIer_src (v : Word) : (s.writeIer v).src = s.src := rfl
@[simp] theorem State.writeIer_dst (v : Word) : (s.writeIer v).dst = s.dst := rfl
@[simp] theorem State.writeIer_len (v : Word) : (s.writeIer v).len = s.len := rfl
@[simp] theorem State.writeIer_typeCode (v : Word) : (s.writeIer v).typeCode = s.typeCode := rfl
@[simp] theorem State.writeIer_crcState (v : Word) : (s.writeIer v).crcState = s.crcState := rfl
@[simp] theorem State.writeIer_resLen (v : Word) : (s.writeIer v).resLen = s.resLen := rfl
@[simp] theorem State.writeIer_resType (v : Word) : (s.writeIer v).resType = s.resType := rfl
@[simp] theorem State.writeIer_resCrc (v : Word) : (s.writeIer v).resCrc = s.resCrc := rfl
@[simp] theorem State.writeIer_resData (v : Word) : (s.writeIer v).resData = s.resData := rfl
@[simp] theorem State.writeIer_resSize (v : Word) : (s.writeIer v).resSize = s.resSize := rfl
@[simp] theorem State.writeIer_buf (v : Word) : (s.writeIer v).buf = s.buf := rfl
@[simp] theorem State.writeIer_answer (v : Word) : (s.writeIer v).answer = .okay := rfl
@[simp] theorem State.writeIer_events (v : Word) : (s.writeIer v).events = s.events := rfl
@[simp] theorem State.writeIer_freeCount (v : Word) : (s.writeIer v).freeCount = s.freeCount := rfl

/-! `State.setResults` -/

@[simp] theorem State.setResults_params (l ty crc : Word) (d : Nat) : (s.setResults l ty crc d).params = s.params := rfl
@[simp] theorem State.setResults_phase (l ty crc : Word) (d : Nat) : (s.setResults l ty crc d).phase = s.phase := rfl
@[simp] theorem State.setResults_ctrl (l ty crc : Word) (d : Nat) : (s.setResults l ty crc d).ctrl = s.ctrl := rfl
@[simp] theorem State.setResults_status (l ty crc : Word) (d : Nat) : (s.setResults l ty crc d).status = s.status := rfl
@[simp] theorem State.setResults_ier (l ty crc : Word) (d : Nat) : (s.setResults l ty crc d).ier = s.ier := rfl
@[simp] theorem State.setResults_src (l ty crc : Word) (d : Nat) : (s.setResults l ty crc d).src = s.src := rfl
@[simp] theorem State.setResults_dst (l ty crc : Word) (d : Nat) : (s.setResults l ty crc d).dst = s.dst := rfl
@[simp] theorem State.setResults_len (l ty crc : Word) (d : Nat) : (s.setResults l ty crc d).len = s.len := rfl
@[simp] theorem State.setResults_typeCode (l ty crc : Word) (d : Nat) : (s.setResults l ty crc d).typeCode = s.typeCode := rfl
@[simp] theorem State.setResults_crcState (l ty crc : Word) (d : Nat) : (s.setResults l ty crc d).crcState = s.crcState := rfl
@[simp] theorem State.setResults_resLen (l ty crc : Word) (d : Nat) : (s.setResults l ty crc d).resLen = l := rfl
@[simp] theorem State.setResults_resType (l ty crc : Word) (d : Nat) : (s.setResults l ty crc d).resType = ty := rfl
@[simp] theorem State.setResults_resCrc (l ty crc : Word) (d : Nat) : (s.setResults l ty crc d).resCrc = crc := rfl
@[simp] theorem State.setResults_resData (l ty crc : Word) (d : Nat) : (s.setResults l ty crc d).resData = BitVec.ofNat 32 (d + 8) := rfl
@[simp] theorem State.setResults_resSize (l ty crc : Word) (d : Nat) : (s.setResults l ty crc d).resSize = BitVec.ofNat 32 (12 + l.toNat) := rfl
@[simp] theorem State.setResults_buf (l ty crc : Word) (d : Nat) : (s.setResults l ty crc d).buf = s.buf := rfl
@[simp] theorem State.setResults_answer (l ty crc : Word) (d : Nat) : (s.setResults l ty crc d).answer = s.answer := rfl
@[simp] theorem State.setResults_events (l ty crc : Word) (d : Nat) : (s.setResults l ty crc d).events = s.events := rfl
@[simp] theorem State.setResults_freeCount (l ty crc : Word) (d : Nat) : (s.setResults l ty crc d).freeCount = s.freeCount := rfl

/-! `State.hardReset` -/

@[simp] theorem State.hardReset_params : (s.hardReset).params = s.params := rfl
@[simp] theorem State.hardReset_phase : (s.hardReset).phase = State.reset.phase := rfl
@[simp] theorem State.hardReset_ctrl : (s.hardReset).ctrl = State.reset.ctrl := rfl
@[simp] theorem State.hardReset_status : (s.hardReset).status = State.reset.status := rfl
@[simp] theorem State.hardReset_ier : (s.hardReset).ier = State.reset.ier := rfl
@[simp] theorem State.hardReset_src : (s.hardReset).src = State.reset.src := rfl
@[simp] theorem State.hardReset_dst : (s.hardReset).dst = State.reset.dst := rfl
@[simp] theorem State.hardReset_len : (s.hardReset).len = State.reset.len := rfl
@[simp] theorem State.hardReset_typeCode : (s.hardReset).typeCode = State.reset.typeCode := rfl
@[simp] theorem State.hardReset_crcState : (s.hardReset).crcState = State.reset.crcState := rfl
@[simp] theorem State.hardReset_resLen : (s.hardReset).resLen = State.reset.resLen := rfl
@[simp] theorem State.hardReset_resType : (s.hardReset).resType = State.reset.resType := rfl
@[simp] theorem State.hardReset_resCrc : (s.hardReset).resCrc = State.reset.resCrc := rfl
@[simp] theorem State.hardReset_resData : (s.hardReset).resData = State.reset.resData := rfl
@[simp] theorem State.hardReset_resSize : (s.hardReset).resSize = State.reset.resSize := rfl
@[simp] theorem State.hardReset_buf : (s.hardReset).buf = State.reset.buf := rfl
@[simp] theorem State.hardReset_answer : (s.hardReset).answer = State.reset.answer := rfl
@[simp] theorem State.hardReset_events : (s.hardReset).events = s.events := rfl
@[simp] theorem State.hardReset_freeCount : (s.hardReset).freeCount = s.freeCount := rfl

/-! `State.placeCommand` -/

@[simp] theorem State.placeCommand_params (v : Word) : (s.placeCommand v).params = s.params := rfl
@[simp] theorem State.placeCommand_phase (v : Word) : (s.placeCommand v).phase = .busy := rfl
@[simp] theorem State.placeCommand_ctrl (v : Word) : (s.placeCommand v).ctrl = v := rfl
@[simp] theorem State.placeCommand_status (v : Word) : (s.placeCommand v).status = { s.status with done := false } := rfl
@[simp] theorem State.placeCommand_ier (v : Word) : (s.placeCommand v).ier = s.ier := rfl
@[simp] theorem State.placeCommand_src (v : Word) : (s.placeCommand v).src = s.src := rfl
@[simp] theorem State.placeCommand_dst (v : Word) : (s.placeCommand v).dst = s.dst := rfl
@[simp] theorem State.placeCommand_len (v : Word) : (s.placeCommand v).len = s.len := rfl
@[simp] theorem State.placeCommand_typeCode (v : Word) : (s.placeCommand v).typeCode = s.typeCode := rfl
@[simp] theorem State.placeCommand_crcState (v : Word) : (s.placeCommand v).crcState = s.crcState := rfl
@[simp] theorem State.placeCommand_resLen (v : Word) : (s.placeCommand v).resLen = s.resLen := rfl
@[simp] theorem State.placeCommand_resType (v : Word) : (s.placeCommand v).resType = s.resType := rfl
@[simp] theorem State.placeCommand_resCrc (v : Word) : (s.placeCommand v).resCrc = s.resCrc := rfl
@[simp] theorem State.placeCommand_resData (v : Word) : (s.placeCommand v).resData = s.resData := rfl
@[simp] theorem State.placeCommand_resSize (v : Word) : (s.placeCommand v).resSize = s.resSize := rfl
@[simp] theorem State.placeCommand_buf (v : Word) : (s.placeCommand v).buf = s.buf := rfl
@[simp] theorem State.placeCommand_answer (v : Word) : (s.placeCommand v).answer = s.answer := rfl
@[simp] theorem State.placeCommand_events (v : Word) : (s.placeCommand v).events = .engine :: s.events := rfl
@[simp] theorem State.placeCommand_freeCount (v : Word) : (s.placeCommand v).freeCount = s.freeCount := rfl

/-! `State.setOperand` -/

@[simp] theorem State.setOperand_params (r : OperandReg) (v : Word) : (s.setOperand r v).params = s.params := by
  cases r <;> rfl
@[simp] theorem State.setOperand_phase (r : OperandReg) (v : Word) : (s.setOperand r v).phase = s.phase := by
  cases r <;> rfl
@[simp] theorem State.setOperand_ctrl (r : OperandReg) (v : Word) : (s.setOperand r v).ctrl = s.ctrl := by
  cases r <;> rfl
@[simp] theorem State.setOperand_status (r : OperandReg) (v : Word) : (s.setOperand r v).status = s.status := by
  cases r <;> rfl
@[simp] theorem State.setOperand_ier (r : OperandReg) (v : Word) : (s.setOperand r v).ier = s.ier := by
  cases r <;> rfl
@[simp] theorem State.setOperand_resLen (r : OperandReg) (v : Word) : (s.setOperand r v).resLen = s.resLen := by
  cases r <;> rfl
@[simp] theorem State.setOperand_resType (r : OperandReg) (v : Word) : (s.setOperand r v).resType = s.resType := by
  cases r <;> rfl
@[simp] theorem State.setOperand_resCrc (r : OperandReg) (v : Word) : (s.setOperand r v).resCrc = s.resCrc := by
  cases r <;> rfl
@[simp] theorem State.setOperand_resData (r : OperandReg) (v : Word) : (s.setOperand r v).resData = s.resData := by
  cases r <;> rfl
@[simp] theorem State.setOperand_resSize (r : OperandReg) (v : Word) : (s.setOperand r v).resSize = s.resSize := by
  cases r <;> rfl
@[simp] theorem State.setOperand_buf (r : OperandReg) (v : Word) : (s.setOperand r v).buf = s.buf := by
  cases r <;> rfl
@[simp] theorem State.setOperand_answer (r : OperandReg) (v : Word) : (s.setOperand r v).answer = s.answer := by
  cases r <;> rfl
@[simp] theorem State.setOperand_events (r : OperandReg) (v : Word) : (s.setOperand r v).events = s.events := by
  cases r <;> rfl
@[simp] theorem State.setOperand_freeCount (r : OperandReg) (v : Word) : (s.setOperand r v).freeCount = s.freeCount := by
  cases r <;> rfl
@[simp] theorem State.setOperand_src (r : OperandReg) (v : Word) :
    (s.setOperand r v).src = if r = .src then maskAddr s.params v else s.src := by
  cases r <;> rfl
@[simp] theorem State.setOperand_dst (r : OperandReg) (v : Word) :
    (s.setOperand r v).dst = if r = .dst then maskAddr s.params v else s.dst := by
  cases r <;> rfl
@[simp] theorem State.setOperand_len (r : OperandReg) (v : Word) :
    (s.setOperand r v).len = if r = .len then v else s.len := by
  cases r <;> rfl
@[simp] theorem State.setOperand_typeCode (r : OperandReg) (v : Word) :
    (s.setOperand r v).typeCode = if r = .typeCode then v else s.typeCode := by
  cases r <;> rfl
@[simp] theorem State.setOperand_crcState (r : OperandReg) (v : Word) :
    (s.setOperand r v).crcState = if r = .crcState then v else s.crcState := by
  cases r <;> rfl

end Sys2Proof.Machine
end

