-- ==== Sys2Proof/Laws/Ops.lean ====
section
/-! SUPPORT. For each shared operation, and for the step, one lemma that says everything it can do. -/

namespace Sys2Proof.Machine

/-- BUSY and the phase are one thing (R21). -/
@[simp] theorem State.busy_eq_true (s : State) : s.busy = true ↔ s.phase = .busy := by
  cases h : s.phase <;> simp [State.busy, h]

@[simp] theorem State.busy_eq_false (s : State) : s.busy = false ↔ s.phase = .idle := by
  cases h : s.phase <;> simp [State.busy, h]

@[simp] theorem State.inRange_eq_true (s : State) (a n : Nat) : s.inRange a n = true ↔ a + n ≤ s.bufSize := by
  simp [State.inRange]

/-- No buffer is larger than 2^31 bytes (R5), so every address and size below fits a register. -/
theorem State.bufSize_le (s : State) : s.bufSize ≤ 2 ^ 31 := by
  have h := s.params.bufLog2.isLt
  exact Nat.pow_le_pow_right (by decide) (by omega)

/-- A masked address is the value modulo BUF_SIZE (R215). -/
theorem maskAddr_toNat (p : Params) (v : Word) : (maskAddr p v).toNat = v.toNat % p.bufSize := by
  have h := p.bufLog2.isLt
  have hpos : 0 < p.bufSize := Nat.pow_pos (by decide)
  have h2 : v.toNat % p.bufSize < 2 ^ 32 := lt_of_le_of_lt (Nat.mod_le _ _) v.isLt
  rw [maskAddr, BitVec.toNat_setWidth, BitVec.toNat_setWidth]
  exact Nat.mod_eq_of_lt h2

@[simp] theorem Status.succeeded_done (st : Status) : st.succeeded.done = true := rfl
@[simp] theorem Status.succeeded_err (st : Status) : st.succeeded.err = st.err := rfl
@[simp] theorem Status.succeeded_ovr (st : Status) : st.succeeded.ovr = st.ovr := rfl
@[simp] theorem Status.succeeded_errCode (st : Status) : st.succeeded.errCode = .ok := rfl

/-- STATUS after a success, as the statements write it. -/
@[simp] theorem Status.completed_ok (st : Status) : st.completed .ok = st.succeeded := by
  simp [Status.completed, Status.succeeded]

/-- The state after a failure, as the statements write it. -/
theorem State.finish_error (s : State) {c : ErrCode} (h : c ≠ .ok) : s.finish c = s.failedWith c := by
  simp [State.finish, Status.completed, State.failedWith, h]

/-- A completion that answers a next state: an error, which changes STATUS only, or the effects and STATUS (R142, R143). -/
theorem State.complete_eq_next {s t : State} {r : CmdOutcome} :
    s.complete r = .next t ↔ (∃ c, r = .raise c ∧ t = s.finish c) ∨ ∃ s', r = .effects s' ∧ t = s'.finish .ok := by
  cases r <;> simp [State.complete, eq_comm]

/-- A completion stops exactly where the command read an unwritten byte. -/
theorem State.complete_eq_fault {s : State} {r : CmdOutcome} {f : Fault} : s.complete r = .fault f ↔ r = .stop f := by
  cases r <;> simp [State.complete]

/-- A completion refuses nothing. -/
theorem State.complete_ne_refused {s : State} {r : CmdOutcome} {x : Refusal} : s.complete r ≠ .refused x := by
  cases r <;> simp [State.complete]

/-- What CRC's computation can give (R165). -/
theorem State.runCrc_cases (s : State) (init : Bool) :
    (s.bufSize < s.src.toNat + s.len.toNat ∧ s.runCrc init = .raise .range) ∨
    (s.src.toNat + s.len.toNat ≤ s.bufSize ∧
      ((∃ x, s.buf.readBytes s.src.toNat s.len.toNat = .error x ∧ s.runCrc init = .stop (.unwrittenByte x)) ∨
        ∃ bytes, s.buf.readBytes s.src.toNat s.len.toNat = .ok bytes ∧
          s.runCrc init = .effects { s with crcState := crcRaw (s.crcSeed init) bytes })) := by
  unfold State.runCrc
  by_cases h : s.src.toNat + s.len.toNat ≤ s.bufSize
  · refine .inr ⟨h, ?_⟩
    rw [if_neg (by simpa using h)]
    cases hr : s.buf.readBytes s.src.toNat s.len.toNat with
    | error x => exact .inl ⟨x, rfl, rfl⟩
    | ok bytes => exact .inr ⟨bytes, rfl, rfl⟩
  · exact .inl ⟨by omega, by rw [if_pos (by simpa [State.inRange] using h)]⟩

/-- What SER's computation can give, in the order of its checks (R183, R263). -/
theorem State.runSer_cases (s : State) :
    (s.bufSize < s.src.toNat + s.len.toNat ∧ s.runSer = .raise .range) ∨
    (s.src.toNat + s.len.toNat ≤ s.bufSize ∧ s.bufSize < s.dst.toNat + (12 + s.len.toNat) ∧ s.runSer = .raise .range) ∨
    (s.src.toNat + s.len.toNat ≤ s.bufSize ∧ s.dst.toNat + (12 + s.len.toNat) ≤ s.bufSize ∧
      ((overlaps s.src.toNat s.len.toNat s.dst.toNat = true ∧ s.runSer = .raise .overlap) ∨
      (overlaps s.src.toNat s.len.toNat s.dst.toNat = false ∧
        (((unpack s.typeCode).alpha = false ∧ s.runSer = .raise .invalidType) ∨
        ((unpack s.typeCode).alpha = true ∧
          ((∃ x, s.buf.readBytes s.src.toNat s.len.toNat = .error x ∧ s.runSer = .stop (.unwrittenByte x)) ∨
          ∃ data, s.buf.readBytes s.src.toNat s.len.toNat = .ok data ∧
            s.runSer = .effects (({ s with
              buf := s.buf.writeBytes s.dst.toNat (serializeBytes (unpack s.typeCode) data) } : State).setResults
                s.len s.typeCode (chunkCrc (unpack s.typeCode) data) s.dst.toNat))))))) := by
  unfold State.runSer
  by_cases h1 : s.src.toNat + s.len.toNat ≤ s.bufSize
  swap
  · exact .inl ⟨by omega, by simp [State.inRange, h1]⟩
  by_cases h2 : s.dst.toNat + (12 + s.len.toNat) ≤ s.bufSize
  swap
  · exact .inr (.inl ⟨h1, by omega, by simp [State.inRange, h2]⟩)
  refine .inr (.inr ⟨h1, h2, ?_⟩)
  simp only [State.inRange, h1, h2, decide_true, Bool.not_true, Bool.false_eq_true, if_false]
  cases h3 : overlaps s.src.toNat s.len.toNat s.dst.toNat
  swap
  · exact .inl ⟨rfl, by simp⟩
  refine .inr ⟨rfl, ?_⟩
  cases h4 : (unpack s.typeCode).alpha
  · exact .inl ⟨rfl, by simp⟩
  refine .inr ⟨rfl, ?_⟩
  cases hr : s.buf.readBytes s.src.toNat s.len.toNat with
  | error x => exact .inl ⟨x, rfl, by simp⟩
  | ok data => exact .inr ⟨data, rfl, by simp⟩

/-- What PARSE's computation can give (R184). -/
theorem State.runParse_cases (s : State) :
    (s.bufSize < s.src.toNat + s.len.toNat ∧ s.runParse = .raise .range) ∨
    (s.src.toNat + s.len.toNat ≤ s.bufSize ∧
      ((∃ x, s.buf.readFrame s.src.toNat s.len.toNat = .error x ∧ s.runParse = .stop (.unwrittenByte x)) ∨
        ∃ bytes, s.buf.readFrame s.src.toNat s.len.toNat = .ok bytes ∧
          ((∃ c, parseBytes bytes = .error c ∧ s.runParse = .raise c) ∨
            ∃ chunk, parseBytes bytes = .ok chunk ∧
              s.runParse = .effects (s.setResults chunk.len chunk.type.pack chunk.crc s.src.toNat)))) := by
  unfold State.runParse
  by_cases h : s.src.toNat + s.len.toNat ≤ s.bufSize
  swap
  · exact .inl ⟨by omega, by simp [State.inRange, h]⟩
  refine .inr ⟨h, ?_⟩
  simp only [State.inRange, h, decide_true, Bool.not_true, Bool.false_eq_true, if_false]
  cases hr : s.buf.readFrame s.src.toNat s.len.toNat with
  | error x => exact .inl ⟨x, rfl, rfl⟩
  | ok bytes =>
    refine .inr ⟨bytes, rfl, ?_⟩
    cases hp : parseBytes bytes with
    | error c => exact .inl ⟨c, rfl, by simp [hp]⟩
    | ok chunk => exact .inr ⟨chunk, rfl, by simp [hp]⟩

/-- A host write to CTRL: dropped while busy, an issue while idle (R212, R218). -/
theorem State.writeCtrl_cases (s : State) (v : Word) :
    (s.phase = .busy ∧ s.writeCtrl v = s.dropWrite) ∨ (s.phase = .idle ∧ s.writeCtrl v = (s.issue v).answering .okay) := by
  unfold State.writeCtrl
  cases h : s.phase <;> simp [State.busy, h]

/-- A host write to an operand register: dropped while busy, a store while idle (R215, R218). -/
theorem State.writeOperand_cases (s : State) (r : OperandReg) (v : Word) :
    (s.phase = .busy ∧ s.writeOperand r v = s.dropWrite) ∨
      (s.phase = .idle ∧ s.writeOperand r v = (s.setOperand r v).answering .okay) := by
  unfold State.writeOperand
  cases h : s.phase <;> simp [State.busy, h]

/-- Everything RB can do (R216, R219). -/
theorem execRb_cases (a : Nat) (s : State) :
    (s.bufSize ≤ a ∧ execRb a s = .next (s.answering .error)) ∨
    (a < s.bufSize ∧
      ((s.pendingSerAt a = true ∧
          execRb a s = .next ({ s with freeCount := s.freeCount + 1 }.answering
            (.okayByte (Config.freeByte s.freeCount)))) ∨
        (s.pendingSerAt a = false ∧
          ((s.buf.read a = none ∧ execRb a s = .fault (.unwrittenByte a)) ∨
            ∃ b, s.buf.read a = some b ∧ execRb a s = .next (s.answering (.okayByte b)))))) := by
  unfold execRb
  by_cases h : s.bufSize ≤ a
  · exact .inl ⟨h, by simp [h]⟩
  refine .inr ⟨by omega, ?_⟩
  simp only [h, if_false]
  cases hp : s.pendingSerAt a
  swap
  · exact .inl ⟨rfl, by simp⟩
  refine .inr ⟨rfl, ?_⟩
  cases hr : s.buf.read a with
  | none => exact .inl ⟨rfl, by simp⟩
  | some b => exact .inr ⟨b, rfl, by simp⟩

/-- Everything WB can do (R217, R218, R219). -/
theorem execWb_cases (a : Nat) (w : Byte) (s : State) :
    (s.bufSize ≤ a ∧ execWb a w s = .next (s.answering .error)) ∨
    (a < s.bufSize ∧ s.phase = .busy ∧ execWb a w s = .next s.dropWrite) ∨
    (a < s.bufSize ∧ s.phase = .idle ∧ execWb a w s = .next ({ s with buf := s.buf.write a w }.answering .okay)) := by
  unfold execWb
  by_cases h : s.bufSize ≤ a
  · exact .inl ⟨h, by simp [h]⟩
  cases hp : s.phase
  · exact .inr (.inr ⟨by omega, rfl, by simp [h, State.busy, hp]⟩)
  · exact .inr (.inl ⟨by omega, rfl, by simp [h, State.busy, hp]⟩)

/-- Everything the engine's turn can be (R142). -/
theorem State.engineTurn_cases (s : State) :
    (s.phase = .busy ∧ s.engineTurn = .run (decodeCtrl s.ctrl) s) ∨ (s.phase = .idle ∧ s.engineTurn = .pass s) := by
  unfold State.engineTurn
  cases h : s.phase <;> simp [State.busy, h]

/-- Everything a step can be: a transaction of the host, a request that reaches nothing, a completion, an idle turn, or a
reset. -/
theorem step_cases (s : State) :
    (∃ r rest i, s.events = .host r :: rest ∧ decodeRequest s.params r = .ok i ∧
      step s = exec i { s with events := rest }) ∨
    (∃ r rest e, s.events = .host r :: rest ∧ decodeRequest s.params r = .error e ∧
      step s = .next { s with events := rest }) ∨
    (∃ rest, (s.events = .engine :: rest ∨ (s.events = [] ∧ rest = [])) ∧ s.phase = .busy ∧
      step s = exec (decodeCtrl s.ctrl) { s with events := rest }) ∨
    (∃ rest, (s.events = .engine :: rest ∨ (s.events = [] ∧ rest = [])) ∧ s.phase = .idle ∧
      step s = .next { s with events := rest }) ∨
    (∃ rest, s.events = .reset :: rest ∧ step s = .next ({ s with events := rest } : State).hardReset) := by
  cases he : s.events with
  | nil =>
    have hs : ({ s with events := [] } : State) = s := by rw [← he]
    rcases s.engineTurn_cases with ⟨hp, ht⟩ | ⟨hp, ht⟩
    · refine .inr (.inr (.inl ⟨[], .inr ⟨rfl, rfl⟩, hp, ?_⟩))
      simp [step, State.turn, he, ht, hs]
    · refine .inr (.inr (.inr (.inl ⟨[], .inr ⟨rfl, rfl⟩, hp, ?_⟩)))
      simp [step, State.turn, he, ht, hs]
  | cons e rest =>
    cases e with
    | host r =>
      cases hd : decodeRequest s.params r with
      | ok i => exact .inl ⟨r, rest, i, rfl, hd, by simp [step, State.turn, he, hd]⟩
      | error x => exact .inr (.inl ⟨r, rest, x, rfl, hd, by simp [step, State.turn, he, hd]⟩)
    | engine =>
      rcases State.engineTurn_cases { s with events := rest } with ⟨hp, ht⟩ | ⟨hp, ht⟩
      · exact .inr (.inr (.inl ⟨rest, .inl rfl, hp, by simp [step, State.turn, he, ht]⟩))
      · exact .inr (.inr (.inr (.inl ⟨rest, .inl rfl, hp, by simp [step, State.turn, he, ht]⟩)))
    | reset => exact .inr (.inr (.inr (.inr ⟨rest, rfl, by simp [step, State.turn, he]⟩)))

/-- A run whose first step goes on is the run from there. -/
theorem run_succ_of_next {s t : State} (k : Nat) (h : step s = .next t) :
    Host.Core.run Sys2Proof.core (k + 1) s = Host.Core.run Sys2Proof.core k t := by
  have : Sys2Proof.core.step s = .next t := h
  simp only [Host.Core.run]
  rw [this]

/-- A run whose first step stops is that stop. -/
theorem run_succ_of_fault {s : State} {f : Fault} (k : Nat) (h : step s = .fault f) :
    Host.Core.run Sys2Proof.core (k + 1) s = .fault f := by
  have : Sys2Proof.core.step s = .fault f := h
  simp only [Host.Core.run]
  rw [this]

/-- Inputs still to come are no part of an end state (R315). -/
@[simp] theorem State.endState_events (s : State) (es : List Event) :
    ({ s with events := es } : State).endState = s.endState := rfl

/-- A run with a command pending is not over (R315). -/
theorem State.not_ended_of_busy {s : State} (h : s.phase = .busy) : ¬ s.ended := fun he => by
  have := he.2
  rw [h] at this
  cases this

end Sys2Proof.Machine
end

