-- ==== Sys2Proof/Laws/Framer.lean ====
section
/-! SUPPORT. The byte-level functions of the framer: byte order, packing, and everything `parse_bytes` and PARSE's reads can do. -/

namespace Sys2Proof.Machine

@[simp] theorem unbe32_be32 (v : Word) :
    unbe32 (v.extractLsb' 24 8) (v.extractLsb' 16 8) (v.extractLsb' 8 8) (v.extractLsb' 0 8) = v := by
  apply BitVec.eq_of_getLsbD_eq
  intro i hi
  simp only [unbe32, BitVec.getLsbD_append, BitVec.getLsbD_extractLsb']
  by_cases h1 : i < 8
  · simp [h1]
  by_cases h2 : i < 16
  · simp [h1, show i - 8 < 8 by omega, show 8 + (i - 8) = i by omega]
  by_cases h3 : i < 24
  · simp [h1, show ¬ i - 8 < 8 by omega, show i - 8 - 8 < 8 by omega, show 16 + (i - 8 - 8) = i by omega]
  · simp [h1, show ¬ i - 8 < 8 by omega, show ¬ i - 8 - 8 < 8 by omega, show i - 8 - 8 - 8 < 8 by omega,
      show 24 + (i - 8 - 8 - 8) = i by omega]

theorem be32_unbe32 (b0 b1 b2 b3 : Byte) : be32 (unbe32 b0 b1 b2 b3) = [b0, b1, b2, b3] := by
  have key : ∀ (k : Nat) (b : Byte), (∀ j, j < 8 → (unbe32 b0 b1 b2 b3).getLsbD (k + j) = b.getLsbD j) →
      (unbe32 b0 b1 b2 b3).extractLsb' k 8 = b := by
    intro k b h
    apply BitVec.eq_of_getLsbD_eq
    intro j hj
    simp [hj, h j hj]
  have e : ∀ i, (unbe32 b0 b1 b2 b3).getLsbD i =
      if i < 8 then b3.getLsbD i else if i - 8 < 8 then b2.getLsbD (i - 8)
      else if i - 8 - 8 < 8 then b1.getLsbD (i - 8 - 8) else b0.getLsbD (i - 8 - 8 - 8) := by
    intro i; simp only [unbe32, BitVec.getLsbD_append]
  rw [be32, key 24 b0, key 16 b1, key 8 b2, key 0 b3] <;> intro j hj <;> rw [e]
  · simp [hj]
  · simp [hj, show ¬ 8 + j < 8 by omega]
  · simp [hj, show ¬ 16 + j < 8 by omega, show ¬ 16 + j - 8 < 8 by omega, show 16 + j - 8 - 8 = j by omega]
  · simp [show ¬ 24 + j < 8 by omega, show ¬ 24 + j - 8 < 8 by omega, show ¬ 24 + j - 8 - 8 < 8 by omega,
      show 24 + j - 8 - 8 - 8 = j by omega]

@[simp] theorem be32_length (v : Word) : (be32 v).length = 4 := rfl

@[simp] theorem be32_inj {v w : Word} : be32 v = be32 w ↔ v = w := by
  constructor
  · intro h
    simp only [be32, List.cons.injEq, and_true] at h
    rw [← unbe32_be32 v, ← unbe32_be32 w, h.1, h.2.1, h.2.2.1, h.2.2.2]
  · rintro rfl; rfl

/-- The type code a register holds is the register's bytes, so packing them gives the register back (R28, R157). -/
@[simp] theorem pack_unpack (w : Word) : (unpack w).pack = w := unbe32_be32 w

@[simp] theorem unpack_pack (t : TypeCode) : unpack t.pack = t := by
  have h := be32_unbe32 t.t0 t.t1 t.t2 t.t3
  simp only [be32, List.cons.injEq, and_true] at h
  obtain ⟨h0, h1, h2, h3⟩ := h
  simp only [unpack, TypeCode.pack]
  unfold unbe32 at h0 h1 h2 h3
  rw [h0, h1, h2, h3]

@[simp] theorem TypeCode.bytes_length (t : TypeCode) : t.bytes.length = 4 := rfl

@[simp] theorem serializeBytes_length (t : TypeCode) (data : List Byte) :
    (serializeBytes t data).length = 12 + data.length := by
  simp [serializeBytes]; omega

/-- Eight bytes are a length field and a type field. -/
theorem exists_header {bytes : List Byte} (h : bytes.length = 8) : ∃ (l : Word) (t : TypeCode), bytes = be32 l ++ t.bytes := by
  match bytes, h with
  | [a, b, c, d, e, f, g, i], _ => exact ⟨unbe32 a b c d, ⟨e, f, g, i⟩, by simp [be32_unbe32, TypeCode.bytes]⟩

/-- Fewer than eight bytes (R182: "length or type not all present"). -/
theorem parseBytes_short {bytes : List Byte} (h : bytes.length < 8) : parseBytes bytes = .error .truncated := by
  match bytes, h with
  | [], _ | [_], _ | [_, _], _ | [_, _, _], _ | [_, _, _, _], _ | [_, _, _, _, _], _ | [_, _, _, _, _, _], _
  | [_, _, _, _, _, _, _], _ => rfl

/-- A header whose type is not all letters. -/
theorem parseBytes_invalidType (l : Word) {t : TypeCode} (rest : List Byte) (h : t.alpha = false) :
    parseBytes (be32 l ++ t.bytes ++ rest) = .error .invalidType := by
  simp [be32, TypeCode.bytes, parseBytes, h]

/-- A header of letters with too few bytes after it. -/
theorem parseBytes_truncated {l : Word} {t : TypeCode} {rest : List Byte} (h : t.alpha = true)
    (hl : rest.length < l.toNat + 4) : parseBytes (be32 l ++ t.bytes ++ rest) = .error .truncated := by
  have hd : (rest.drop l.toNat).length < 4 := by simp; omega
  simp only [be32, TypeCode.bytes, List.cons_append, List.nil_append, parseBytes, h, unbe32_be32, Bool.not_true,
    Bool.false_eq_true, if_false]
  split
  · rename_i hx; rw [hx] at hd; simp at hd; omega
  · rfl

/-- A whole frame, whatever follows it. -/
theorem parseBytes_frame {l : Word} {t : TypeCode} {data : List Byte} (crc : Word) (rest : List Byte) (h : t.alpha = true)
    (hl : data.length = l.toNat) :
    parseBytes (be32 l ++ t.bytes ++ (data ++ be32 crc ++ rest)) =
      if crc = chunkCrc t data then .ok ⟨l, t, data, crc⟩ else .error .crcMismatch := by
  have hd : (data ++ be32 crc ++ rest).drop l.toNat = be32 crc ++ rest := by
    rw [List.append_assoc, ← hl, List.drop_left]
  have ht : (data ++ be32 crc ++ rest).take l.toNat = data := by
    rw [List.append_assoc, ← hl, List.take_left]
  simp only [be32, List.cons_append, List.nil_append] at hd ht
  simp only [be32, TypeCode.bytes, List.cons_append, List.nil_append, parseBytes, h, unbe32_be32, Bool.not_true,
    Bool.false_eq_true, if_false, hd, ht]

/-- Enough bytes after a header are a payload, a CRC field and a rest. -/
theorem exists_frame {l : Word} {rest : List Byte} (h : l.toNat + 4 ≤ rest.length) :
    ∃ data crc tail, data.length = l.toNat ∧ rest = data ++ be32 crc ++ tail := by
  have hd : 4 ≤ (rest.drop l.toNat).length := by simp; omega
  match hx : rest.drop l.toNat, hd with
  | a :: b :: c :: d :: tail, _ =>
    refine ⟨rest.take l.toNat, unbe32 a b c d, tail, by simp; omega, ?_⟩
    rw [be32_unbe32, List.append_assoc]
    conv_lhs => rw [← List.take_append_drop l.toNat rest, hx]
    rfl

/-- Everything `parse_bytes` can do (R182), in the order of its checks. -/
theorem parseBytes_cases (bytes : List Byte) :
    (bytes.length < 8 ∧ parseBytes bytes = .error .truncated) ∨
    ∃ (l : Word) (t : TypeCode) (rest : List Byte), bytes = be32 l ++ t.bytes ++ rest ∧
      ((t.alpha = false ∧ parseBytes bytes = .error .invalidType) ∨
      (t.alpha = true ∧ rest.length < l.toNat + 4 ∧ parseBytes bytes = .error .truncated) ∨
      (t.alpha = true ∧ ∃ data crc tail, data.length = l.toNat ∧ rest = data ++ be32 crc ++ tail ∧
        ((crc ≠ chunkCrc t data ∧ parseBytes bytes = .error .crcMismatch) ∨
          (crc = chunkCrc t data ∧ parseBytes bytes = .ok ⟨l, t, data, crc⟩)))) := by
  by_cases h8 : bytes.length < 8
  · exact .inl ⟨h8, parseBytes_short h8⟩
  right
  obtain ⟨l, t, ht⟩ := exists_header (bytes := bytes.take 8) (by simp; omega)
  refine ⟨l, t, bytes.drop 8, by rw [← ht, List.take_append_drop], ?_⟩
  have hb : bytes = be32 l ++ t.bytes ++ bytes.drop 8 := by rw [← ht, List.take_append_drop]
  cases ha : t.alpha
  · exact .inl ⟨rfl, by rw [hb]; exact parseBytes_invalidType l _ ha⟩
  by_cases hr : (bytes.drop 8).length < l.toNat + 4
  · exact .inr (.inl ⟨rfl, hr, by rw [hb]; exact parseBytes_truncated ha hr⟩)
  obtain ⟨data, crc, tail, hl, hd⟩ := exists_frame (l := l) (rest := bytes.drop 8) (by omega)
  refine .inr (.inr ⟨rfl, data, crc, tail, hl, hd, ?_⟩)
  have hp := parseBytes_frame crc tail ha hl
  rw [← hd, ← hb] at hp
  by_cases hc : crc = chunkCrc t data
  · exact .inr ⟨hc, by rw [hp, if_pos hc]⟩
  · exact .inl ⟨hc, by rw [hp, if_neg hc]⟩

/-- A success of `parse_bytes` is a serialized frame and a rest (R181, R182). -/
theorem parseBytes_eq_ok {bytes : List Byte} {chunk : Chunk} :
    parseBytes bytes = .ok chunk ↔
      chunk.type.alpha = true ∧ chunk.data.length = chunk.len.toNat ∧ chunk.crc = chunkCrc chunk.type chunk.data ∧
        ∃ rest, bytes = serializeBytes chunk.type chunk.data ++ rest := by
  constructor
  · intro h
    rcases parseBytes_cases bytes with ⟨-, hp⟩ | ⟨l, t, rest, hb, ⟨-, hp⟩ | ⟨-, -, hp⟩ | ⟨ha, data, crc, tail, hl, hr, ⟨-, hp⟩ | ⟨hc, hp⟩⟩⟩ <;>
      rw [hp] at h <;> cases h
    refine ⟨ha, hl, hc, tail, ?_⟩
    rw [hb, hr, serializeBytes, ← hc, hl, BitVec.ofNat_toNat, BitVec.setWidth_eq]
    simp
  · obtain ⟨l, t, data, crc⟩ := chunk
    rintro ⟨ha, hl, hc, rest, hb⟩
    simp only at ha hl hc hb
    have := parseBytes_frame crc rest ha hl
    rw [if_pos hc] at this
    rw [← this, hb, serializeBytes, ← hc, hl, BitVec.ofNat_toNat, BitVec.setWidth_eq]
    simp

/-- Everything PARSE's reads can do (R184, log entry 7). -/
theorem Memory.readFrame_cases (m : Memory) (b n : Nat) :
    (n < 8 ∧ m.readFrame b n = .ok []) ∨
    (8 ≤ n ∧
      ((∃ x, m.readBytes b 8 = .error x ∧ m.readFrame b n = .error x) ∨
      ∃ (l : Word) (t : TypeCode), m.readBytes b 8 = .ok (be32 l ++ t.bytes) ∧
        (((t.alpha = false ∨ n < 12 + l.toNat) ∧ m.readFrame b n = .ok (be32 l ++ t.bytes)) ∨
          (t.alpha = true ∧ 12 + l.toNat ≤ n ∧ m.readFrame b n = m.readBytes b (12 + l.toNat))))) := by
  unfold Memory.readFrame
  by_cases h8 : n < 8
  · exact .inl ⟨h8, by simp [h8]⟩
  refine .inr ⟨by omega, ?_⟩
  simp only [h8, if_false]
  cases hr : m.readBytes b 8 with
  | error x => exact .inl ⟨x, rfl, rfl⟩
  | ok header =>
    right
    obtain ⟨l, t, rfl⟩ := exists_header (Memory.readBytes_eq_ok.1 hr).1
    refine ⟨l, t, rfl, ?_⟩
    have he : parseExtent (be32 l ++ t.bytes) n = if t.alpha = true ∧ 12 + l.toNat ≤ n then 12 + l.toNat else 8 := by
      simp [be32, TypeCode.bytes, parseExtent]
    by_cases hc : t.alpha = true ∧ 12 + l.toNat ≤ n
    · exact .inr ⟨hc.1, hc.2, by simp only [he, if_pos hc]⟩
    · refine .inl ⟨?_, by simp only [he, if_neg hc, hr]⟩
      cases ha : t.alpha
      · exact .inl rfl
      · exact .inr (by simp [ha] at hc; omega)

end Sys2Proof.Machine
end

