-- ==== Sys2Proof/Laws/PerInstr.lean ====
section
/-! SUPPORT. Statements made of every instruction, one lemma a constructor. -/

namespace Sys2Proof.Laws

/-- A command is encoded as a CTRL word and a host transaction as a tuple, as the opcode table's "format" says. -/
def TableFormat.Statement (i : Instr) : Prop := (encode i).isCommand = i.isCommand

theorem TableFormat.crc (init : Bool) : TableFormat.Statement (.crc init) := rfl
theorem TableFormat.ser (init : Bool) : TableFormat.Statement (.ser init) := rfl
theorem TableFormat.parse (init : Bool) : TableFormat.Statement (.parse init) := rfl
theorem TableFormat.illegal (word : Word) : TableFormat.Statement (.illegal word) := rfl
theorem TableFormat.rd (r : Reg) : TableFormat.Statement (.rd r) := rfl
theorem TableFormat.wr (r : Reg) (v : Word) : TableFormat.Statement (.wr r v) := rfl
theorem TableFormat.wrCtrl (v : Word) : TableFormat.Statement (.wrCtrl v) := rfl
theorem TableFormat.wrStatus (v : Word) : TableFormat.Statement (.wrStatus v) := rfl
theorem TableFormat.wrIer (v : Word) : TableFormat.Statement (.wrIer v) := rfl
theorem TableFormat.wrOperand (r : OperandReg) (v : Word) : TableFormat.Statement (.wrOperand r v) := rfl
theorem TableFormat.rb (a : Nat) : TableFormat.Statement (.rb a) := rfl
theorem TableFormat.wb (a : Nat) (w : Byte) : TableFormat.Statement (.wb a w) := rfl
theorem TableFormat.busError (t : Transaction) : TableFormat.Statement (.busError t) := rfl

end Sys2Proof.Laws
end

