-- ==== Sys2Proof/Tests/Slice0.lean ====
section
/-! SUPPORT. Tests and witnesses. Expected values are those of 95_test_vectors.md or of the examples of the rules named; words
and tuples are written out from 30_encoding.md. A witness shows a state and operands that meet the hypotheses of the
obligation it is named after. -/

namespace Sys2Proof.Machine.Test

/-- The next state of an outcome meets a test. -/
def ends (o : Host.Outcome State Fault Refusal) (ok : State → Bool) : Bool :=
  match o with
  | .next t => ok t
  | .fault _ => false
  | .refused _ => false

theorem exists_next_of_ends {o : Host.Outcome State Fault Refusal} {ok : State → Bool} (h : ends o ok = true) :
    ∃ t, o = .next t ∧ ok t = true := by
  cases o with
  | next t => exact ⟨t, rfl, h⟩
  | fault _ => cases h
  | refused _ => cases h

/-- The outcome is a stop on the byte at an address. -/
def stopsAt (o : Host.Outcome State Fault Refusal) (a : Nat) : Bool :=
  match o with
  | .next _ => false
  | .fault f => decide (f = .unwrittenByte a)
  | .refused _ => false

theorem eq_fault_of_stopsAt {o : Host.Outcome State Fault Refusal} {a : Nat} (h : stopsAt o a = true) :
    o = .fault (.unwrittenByte a) := by
  cases o with
  | next _ => cases h
  | fault f => rw [of_decide_eq_true h]
  | refused _ => cases h

/-- The next state has a status word. -/
def endsWith (o : Host.Outcome State Fault Refusal) (status : Word) : Bool := ends o (fun t => t.statusWord == status)

/-- The next state is a success. -/
def succeeds (o : Host.Outcome State Fault Refusal) : Bool := ends o (fun t => decide (t.status.errCode = .ok))

/-- The next state is a failure. -/
def fails (o : Host.Outcome State Fault Refusal) : Bool := ends o (fun t => decide (t.status.errCode ≠ .ok))

theorem exists_of_succeeds {o : Host.Outcome State Fault Refusal} (h : succeeds o = true) :
    ∃ t, t.status.errCode = .ok ∧ o = .next t :=
  let ⟨t, ht, hc⟩ := exists_next_of_ends h
  ⟨t, of_decide_eq_true hc, ht⟩

theorem exists_of_fails {o : Host.Outcome State Fault Refusal} (h : fails o = true) :
    ∃ t, o = .next t ∧ t.status.errCode ≠ .ok :=
  let ⟨t, ht, hc⟩ := exists_next_of_ends h
  ⟨t, ht, of_decide_eq_true hc⟩

theorem eq_ok_of_toOption {e : Except ErrCode Chunk} {c : Chunk} (h : e.toOption = some c) : e = .ok c := by
  cases e with
  | error _ => cases h
  | ok d => cases h; rfl

/-- Bytes at consecutive addresses. -/
def placed (a : Nat) : List Byte → List (Nat × Byte)
  | [] => []
  | b :: bs => (a, b) :: placed (a + 1) bs

/-- A launch state of R314 with BUF_LOG2 = 8: written bytes and operand registers. -/
def start (bytes : List (Nat × Byte)) (operands : List (OperandReg × Word)) : State :=
  ({ params := { bufLog2 := 8, regBase := 0, bufBase := 0x100 }, bytes := bytes, operands := operands, ier := 0,
     events := [] } : Launch).state

/-- "123456789". -/
def digits : List Byte := [0x31, 0x32, 0x33, 0x34, 0x35, 0x36, 0x37, 0x38, 0x39]

/-- The frame of type "IEND" without payload, vector F2. -/
def iend : List Byte := [0, 0, 0, 0, 0x49, 0x45, 0x4E, 0x44, 0xAE, 0x42, 0x60, 0x82]

/-- The frame G of P-FLIP: type "RuSt", payload the CRC of "RuSt". -/
def frameG : List Byte := [0, 0, 0, 4, 0x52, 0x75, 0x53, 0x74, 0xD4, 0x84, 0x09, 0x3C, 0xFB, 0x9E, 0xB2, 0x54]

/-- The payload of G. -/
def payloadG : List Byte := [0xD4, 0x84, 0x09, 0x3C]

/-- "RuSt". -/
def rust : TypeCode := ⟨0x52, 0x75, 0x53, 0x74⟩

/-- The payload of G at `src`, and a SER of it to `dst`. -/
def serG (src : Nat) (dst : Word) : State :=
  start (placed src payloadG)
    [(.typeCode, 0x52755374), (.src, BitVec.ofNat 32 src), (.len, 4), (.dst, dst)]

/-- Bytes at `src`, and `n` of them for a PARSE. -/
def parseOf (bytes : List Byte) (src : Nat) (n : Word) : State :=
  start (placed src bytes) [(.src, BitVec.ofNat 32 src), (.len, n)]

/-- "123456789" from address 0, and a CRC window. -/
def crcOf (state src len : Word) : State := start (placed 0 digits) [(.crcState, state), (.src, src), (.len, len)]

/-! ## Well-formed terms: each check refuses an ill-formed one -/

theorem test_wf_refuses_illegal_of_legal_word : (Instr.illegal 0x11).wf State.reset.params = false := by decide
theorem test_wf_refuses_plain_row_of_writable_register : (Instr.wr .len 5).wf State.reset.params = false := by decide
theorem test_wf_refuses_read_past_buf : (Instr.rb 256).wf State.reset.params = false := by decide
theorem test_wf_refuses_write_past_buf : (Instr.wb 256 0).wf State.reset.params = false := by decide
theorem test_wf_refuses_bus_error_of_legal_tuple :
    (Instr.busError ⟨.reg, 0x3C, .read .four⟩).wf State.reset.params = false := by decide
theorem test_wf_refuses_small_buffer : ({ bufLog2 := 3, regBase := 0, bufBase := 64 } : Params).wf = false := by decide
theorem test_wf_refuses_meeting_apertures :
    ({ bufLog2 := 8, regBase := 0x100, bufBase := 0x13F } : Params).wf = false := by decide
theorem test_wf_accepts_touching_apertures :
    ({ bufLog2 := 8, regBase := 0x100, bufBase := 0x140 } : Params).wf = true := by decide

/-! ## Launch states (R314): STATUS bits only beside a pending word -/

theorem test_launch_without_pending_word : (start [] []).statusWord = 0 := by decide
theorem test_launch_with_pending_word :
    ({ params := { bufLog2 := 8, regBase := 0, bufBase := 0x100 }, bytes := [], operands := [], ier := 0, events := [],
       pending := some { word := 0x11, err := true, errCode := .truncated } } : Launch).state.statusWord = 0x505 := by decide

/-! ## Decoding: one word or tuple of each row, from R101, R105 and R106 -/

theorem test_decode_crc : decodeCtrl 0b00000000000000000000000000010001 = .crc true := by decide
theorem test_decode_ser : decodeCtrl 0b00000000000000000000000000000010 = .ser false := by decide
theorem test_decode_parse : decodeCtrl 0b00000000000000000000000000010011 = .parse true := by decide
theorem test_decode_illegal :
    ([0, 4, 0x0F, 0x21, 0x80000001, 0xFFFFFFFF] : List Word).all (fun v => decide (decodeCtrl v = .illegal v)) = true := by
  decide +kernel
theorem test_decode_rd : decode State.reset.params (.transaction ⟨.reg, 0x1C, .read .four⟩) = .rd .crcState := by decide
theorem test_decode_wr :
    decode State.reset.params (.transaction ⟨.reg, 0x28, .write4 5⟩) = .wr .resLen 5 := by decide
theorem test_decode_wr_ctrl :
    decode State.reset.params (.transaction ⟨.reg, 0x00, .write4 0x21⟩) = .wrCtrl 0x21 := by decide
theorem test_decode_wr_status :
    decode State.reset.params (.transaction ⟨.reg, 0x04, .write4 0x0E⟩) = .wrStatus 0x0E := by decide
theorem test_decode_wr_ier :
    decode State.reset.params (.transaction ⟨.reg, 0x08, .write4 2⟩) = .wrIer 2 := by decide
theorem test_decode_wr_operands :
    [(0x0C, OperandReg.src), (0x10, .dst), (0x14, .len), (0x18, .typeCode), (0x1C, .crcState)].all (fun c =>
      decide (decode State.reset.params (.transaction ⟨.reg, c.1, .write4 7⟩) = .wrOperand c.2 7)) = true := by decide +kernel
theorem test_decode_rb : decode State.reset.params (.transaction ⟨.buf, 255, .read .one⟩) = .rb 255 := by decide
theorem test_decode_wb :
    decode State.reset.params (.transaction ⟨.buf, 0, .write1 0x31⟩) = .wb 0 0x31 := by decide
theorem test_decode_bus_error :
    [(⟨.reg, 0x04, .read .two⟩ : Transaction), ⟨.reg, 0x06, .read .four⟩, ⟨.buf, 0, .write4 0⟩, ⟨.buf, 256, .read .one⟩].all
      (fun t => decide (decode State.reset.params (.transaction t) = .busError t)) = true := by decide
theorem test_decode_bus_address :
    decodeRequest State.reset.params ⟨0x103, .read .one⟩ = .ok (.rb 3) ∧
      decodeRequest State.reset.params ⟨0x40, .read .four⟩ = .error (.outsideApertures 0x40) := ⟨rfl, rfl⟩

/-! ## Results -/

theorem test_memory_of_reset_is_canonical : State.reset.buf.wf := by decide

/-- 95_test_vectors.md C1 and C3. -/
theorem test_crc_of_digits :
    ends (exec (.crc true) (crcOf 0x12345678 0 9)) (fun t => t.crcState == 0x340BC6D9 && t.crcResult == 0xCBF43926) = true := by
  decide +kernel
theorem test_crc_continues :
    ends (exec (.crc false) (crcOf 0x641C1F5C 4 5)) (fun t => t.crcState == 0x340BC6D9) = true := by decide +kernel

/-- The frame of P-FLIP, and E2: a payload under the frame's header. -/
theorem test_ser_in_place :
    ends (exec (.ser false) (serG 8 0)) (fun t =>
      (t.buf.readBytes 0 16).toOption == some frameG && t.resSize == 16 && t.resData == 8 && t.resCrc == 0xFB9EB254) = true := by
  decide +kernel
theorem test_ser_overlap : endsWith (exec (.ser true) (serG 0 0)) 0x306 = true := by decide +kernel

/-- P-FLIP: the flipped length parses with wrong data; Q8: the type is checked before the length. -/
theorem test_parse_of_flipped_length :
    ends (exec (.parse false) (parseOf (flipBit frameG 3 2) 0 16)) (fun t =>
      t.status.errCode == .ok && t.resLen == 0 && t.resCrc == 0xD484093C && t.resSize == 12) = true := by decide +kernel
theorem test_parse_type_before_length :
    endsWith (exec (.parse true) (parseOf [0, 0, 0, 42, 0x12, 0x75, 0x53, 0x74] 0 20)) 0x406 = true := by decide +kernel

/-- H15 and H16. -/
theorem test_illegal : endsWith (exec (.illegal 0x21) State.reset) 0x106 = true := by decide
theorem test_illegal_is_run : endsWith (step (State.reset.withFetchWord 32 0xFFFFFFFF)) 0x106 = true := by decide

/-- H1 and table 2.3. -/
theorem test_rd_cfg : ends (exec (.rd .cfg) State.reset) (fun t => t.answer == .okayWord 8) = true := by decide
theorem test_rd_flags :
    ends (exec (.rd .flags) { State.reset with typeCode := 0x52757374, resType := 0x74455874 })
      (fun t => t.answer == .okayWord 0x3D13) = true := by decide

/-- H4. -/
theorem test_wr_read_only :
    ends (exec (.wr .resLen 5) State.reset) (fun t => t == { State.reset with answer := .okay }) = true := by decide

/-- R212, and R218 for a second write. -/
theorem test_wr_ctrl_issues :
    ends (exec (.wrCtrl 0x11) State.reset) (fun t => t.ctrl == 0x11 && t.statusWord == 1) = true := by decide
theorem test_wr_ctrl_dropped :
    ends (exec (.wrCtrl 0x11) { State.reset with phase := .busy, ctrl := 3 })
      (fun t => t.ctrl == 3 && t.statusWord == 9) = true := by decide

/-- STATUS = 0x506. -/
def status506 : State := { State.reset with status := { done := true, err := true, ovr := false, errCode := .truncated } }

/-- H8 and H9. -/
theorem test_wr_status_clears_err : endsWith (exec (.wrStatus 4) status506) 0x502 = true := by decide
theorem test_wr_status_keeps_errcode : endsWith (exec (.wrStatus 0xFFFFFFFF) status506) 0x500 = true := by decide

/-- H3. -/
theorem test_wr_ier : ends (exec (.wrIer 0xFFFFFFFF) State.reset) (fun t => t.ierWord == 7) = true := by decide

/-- H2 and H10. -/
theorem test_wr_src_masks :
    ends (exec (.wrOperand .src 0x123) State.reset) (fun t => t.src == 0x23) = true := by decide +kernel
theorem test_wr_len_dropped :
    ends (exec (.wrOperand .len 5) { State.reset with phase := .busy })
      (fun t => t.len == 0 && t.status.ovr) = true := by decide

/-- The examples of R216 and R217. -/
theorem test_rb_reads : ends (exec (.rb 3) (parseOf frameG 0 0)) (fun t => t.answer == .okayByte 4) = true := by decide +kernel
theorem test_rb_unwritten : stopsAt (exec (.rb 255) State.reset) 255 = true := by decide
theorem test_wb_writes :
    ends (exec (.wb 0 0x31) State.reset) (fun t => t.buf.read 0 == some 0x31) = true := by decide
theorem test_wb_dropped :
    ends (exec (.wb 0 0x55) { State.reset with phase := .busy }) (fun t => t.buf == [] && t.status.ovr) = true := by decide

/-- H7. -/
theorem test_bus_error :
    ends (exec (.busError ⟨.buf, 0, .write4 0⟩) State.reset)
      (fun t => t == { State.reset with answer := .error }) = true := by decide

/-- H18. -/
theorem test_irq_of_error :
    ends (exec (.illegal 0) { State.reset with ier := { doneIe := false, errIe := true, ovrIe := false } })
      (fun t => t.irq && ends (exec (.wrStatus 4) t) (fun u => !u.irq)) = true := by decide

/-! ## Witnesses: encodings, steps and reset -/

theorem witness_LegalWordsAreExactlySix :
    ([0, 4, 0x20, 0x21, 0xFFFFFFFF] : List Word).all (fun v =>
      decide (v ∉ ([0x01, 0x11, 0x02, 0x12, 0x03, 0x13] : List Word))) = true := by decide +kernel

theorem witness_WrittenWordsDecode : State.reset.params.bufSize = 256 := by decide

/-- A well-formed instruction of each row, at the ends of the ranges. -/
theorem witness_DecodeOfEncode :
    ∀ i ∈ ([.crc true, .ser false, .parse true, .illegal 0, .illegal 0xFFFFFFFF, .rd .ctrl, .rd .cfg, .wr .cfg 1, .wrCtrl 0x21,
      .wrStatus 0, .wrIer 0, .wrOperand .crcState 5, .rb 0, .rb 255, .wb 255 7, .busError ⟨.reg, 64, .read .four⟩,
      .busError ⟨.buf, 256, .write1 0⟩, .busError ⟨.buf, 0, .write2 1⟩] : List Instr),
      i.wf State.reset.params = true := by decide

theorem witness_AddressSelectsAperture :
    State.reset.params.wf = true ∧ 63 < 64 ∧ 255 < State.reset.params.bufSize ∧
      (∀ addr ∈ [0x40, 0xFF, 0x200], (addr < State.reset.params.regBase ∨ State.reset.params.regBase + 64 ≤ addr) ∧
        (addr < State.reset.params.bufBase ∨ State.reset.params.bufBase + State.reset.params.bufSize ≤ addr)) ∧
      ({ State.reset with events := [.host ⟨0x40, .read .one⟩] } : State).events = .host ⟨0x40, .read .one⟩ :: [] := by
  decide

theorem witness_HostLinesReachTheirInstructions :
    State.reset.params.wf = true ∧ 255 < State.reset.params.bufSize := by decide

/-- The request of `RD CFG`. -/
def readsCfg : State := { State.reset with events := [.host ⟨0x3C, .read .four⟩] }

theorem witness_StepRunsDecodedTransaction :
    readsCfg.events = .host ⟨0x3C, .read .four⟩ :: [] ∧
      decodeRequest readsCfg.params ⟨0x3C, .read .four⟩ = .ok (.rd .cfg) := ⟨rfl, rfl⟩

theorem witness_EngineTurnRunsPendingWord :
    (State.reset.placeCommand 0x21).events = .engine :: [] ∧ (State.reset.placeCommand 0x21).phase = .busy ∧
      ({ State.reset with events := [.engine] } : State).events = .engine :: [] ∧ State.reset.phase = .idle ∧
      (State.reset.issue 0x21).events = [] ∧ (State.reset.issue 0x21).phase = .busy ∧
      (∃ t, step (State.reset.issue 0x21) = .next t) ∧ State.reset.events = [] ∧ State.reset.ended ∧
      ({ State.reset with events := [.engine] } : State).ended ∧ ({ State.reset with events := [.reset] } : State).ended :=
  ⟨rfl, rfl, rfl, rfl, rfl, rfl, ⟨_, rfl⟩, rfl, ⟨rfl, rfl⟩, ⟨rfl, rfl⟩, rfl, rfl⟩

theorem witness_PlacedWordRunsNext :
    decodeTableWord 32 0x11 = some (.crc true) ∧ decodeTableWord 32 0xFFFFFFFF = some (.illegal 0xFFFFFFFF) ∧
      decodeTableWord 5 0x11 = some (.crc true) := by decide

/-- A pending SER of a written payload, and a reset. -/
def resetWhileBusy : State := { (serG 8 0).issue 2 with events := [.reset] }

theorem witness_ResetCancelsPendingCommand :
    resetWhileBusy.events = .reset :: [] ∧ resetWhileBusy.phase = .busy ∧ Reg.crcState ≠ .cfg := by decide +kernel

/-! ## Witnesses: invariants -/

theorem witness_StepKeepsInvariant : readsCfg.inv ∧ ∃ t, step readsCfg = .next t := ⟨by decide, _, rfl⟩

theorem witness_LaunchMeetsInvariant :
    ({ params := { bufLog2 := 31, regBase := 0, bufBase := 64 }, bytes := [(0, 1)], operands := [], ier := 7,
       events := [], pending := some { word := 0x21, ovr := true } } : Launch).params.wf = true := by decide

/-- The result registers of vector Q11, and the request of `RD CFG`. -/
def describesIend : State :=
  { readsCfg with resType := 0x49454E44, resCrc := 0xAE426082, resData := 252, resSize := 12 }

theorem witness_StepKeepsResultsDescribingFrame :
    describesIend.resultsDescribeFrame ∧ (∃ t, step describesIend = .next t) ∧
      readsCfg.resultsDescribeFrame ∧ ∃ t, step readsCfg = .next t :=
  ⟨by decide +kernel, ⟨_, rfl⟩, by decide, _, rfl⟩

theorem witness_CfgIsConstant : ∃ t, step { readsCfg with events := [.reset] } = .next t := ⟨_, rfl⟩

/-- Sixteen bytes, all written. -/
def allWritten : State :=
  { State.reset with
    params := { bufLog2 := 4, regBase := 0, bufBase := 64 }
    buf := placed 0 frameG
    events := [.host ⟨79, .read .one⟩, .engine] }

theorem witness_OnlyUnwrittenBytesStop :
    step { State.reset with events := [.host ⟨0x1FF, .read .one⟩] } = .fault (.unwrittenByte 255) ∧
      (∀ a, a < allWritten.bufSize → allWritten.buf.read a ≠ none) ∧ (∀ e ∈ allWritten.events, e ≠ .reset) :=
  ⟨eq_fault_of_stopsAt (by decide), by decide +kernel, by decide⟩

/-! ## Witnesses: CRC and type codes -/

theorem witness_CrcCompletes :
    let s := crcOf 0xFFFFFFFF 0 9
    s.len.toNat = digits.length ∧ s.src.toNat + s.len.toNat ≤ 2 ^ s.params.bufLog2.toNat ∧
      s.buf.holds s.src.toNat digits := by decide +kernel

/-- A window that ends exactly at the end of BUF, C6. -/
theorem witness_CrcCompletes_at_end :
    let s := start [(255, 0)] [(.src, 255), (.len, 1)]
    s.len.toNat = [0#8].length ∧ s.src.toNat + s.len.toNat ≤ 2 ^ s.params.bufLog2.toNat ∧
      s.buf.holds s.src.toNat [0#8] := by decide +kernel

/-- C7 and C8. -/
theorem witness_CrcOutOfRange :
    (∀ s ∈ [crcOf 0 255 2, crcOf 0 0 257, crcOf 0 0 0xFFFFFFFF],
      2 ^ s.params.bufLog2.toNat < s.src.toNat + s.len.toNat) ∧
      ∃ t, exec (.crc true) (crcOf 0 255 2) = .next t ∧ t.status.errCode ≠ .ok :=
  ⟨by decide +kernel, exists_of_fails (by decide +kernel)⟩

theorem witness_CrcResultIsComplement :
    let s := crcOf 0x12345678 0 9
    s.len.toNat = digits.length ∧ s.buf.holds s.src.toNat digits ∧
      ∃ t, t.status.errCode = .ok ∧ exec (.crc true) s = .next t :=
  ⟨by decide +kernel, by decide +kernel, exists_of_succeeds (by decide +kernel)⟩

/-- P1: "1234" and "56789"; and the CRC of the type and payload of G. -/
theorem witness_ContinuingCrc :
    let s := crcOf 0 0 0
    (4#32).toNat = (digits.take 4).length ∧ (0#32).toNat + (4#32).toNat ≤ 2 ^ s.params.bufLog2.toNat ∧
      s.buf.holds (0#32).toNat (digits.take 4) ∧
      (5#32).toNat = (digits.drop 4).length ∧ (4#32).toNat + (5#32).toNat ≤ 2 ^ s.params.bufLog2.toNat ∧
      s.buf.holds (4#32).toNat (digits.drop 4) := by decide +kernel
theorem witness_ContinuingCrc_of_frame :
    let s := parseOf frameG 0 0
    (8#32).toNat = (rust.bytes ++ payloadG).length ∧ (4#32).toNat + (8#32).toNat ≤ 2 ^ s.params.bufLog2.toNat ∧
      s.buf.holds (4#32).toNat (rust.bytes ++ payloadG) ∧ (0#32).toNat = ([] : List Byte).length ∧
      (0#32).toNat + (0#32).toNat ≤ 2 ^ s.params.bufLog2.toNat ∧ s.buf.holds (0#32).toNat [] := by decide +kernel

/-- An in-place SER that succeeds, and a PARSE that succeeds. -/
theorem witness_TypeBytesNeverChanged :
    (∃ t, t.status.errCode = .ok ∧ exec (.ser true) (serG 8 0) = .next t) ∧
      (∃ t, t.status.errCode = .ok ∧ exec (.parse true) (parseOf frameG 0 16) = .next t) :=
  ⟨exists_of_succeeds (by decide +kernel), exists_of_succeeds (by decide +kernel)⟩

/-! ## Witnesses: the framer -/

theorem witness_SerializedFrameLayout : payloadG.length < 2 ^ 32 := by decide

theorem witness_ParseOfSerialize : rust.alpha = true ∧ payloadG.length < 2 ^ 32 := by decide

/-- The first and the last byte of each clause. -/
theorem witness_FlippedTypeDataOrCrcBitDetected :
    rust.alpha = true ∧ payloadG.length < 2 ^ 32 ∧ 7 < 8 ∧ (4 ≤ 4 ∧ 4 < 8) ∧ (4 ≤ 7 ∧ 7 < 8) ∧
      (8 ≤ 8 ∧ 8 < 12 + payloadG.length) ∧ (8 ≤ 15 ∧ 15 < 12 + payloadG.length) := by decide

/-- P-FLIP: bit 2 of byte 3 shortens the payload of G; bit 1 of byte 3 and bit 7 of byte 0 lengthen it. -/
theorem witness_FlippedLengthBit :
    rust.alpha = true ∧ payloadG.length < 2 ^ 32 ∧ 3 < 4 ∧ 2 < 8 ∧
      (BitVec.ofNat 32 payloadG.length ^^^ (1#32 <<< (8 * (3 - 3) + 2))).toNat < payloadG.length ∧
      payloadG.length < (BitVec.ofNat 32 payloadG.length ^^^ (1#32 <<< (8 * (3 - 3) + 1))).toNat ∧
      payloadG.length < (BitVec.ofNat 32 payloadG.length ^^^ (1#32 <<< (8 * (3 - 0) + 7))).toNat := by decide +kernel

/-- The windows of SerCompletes: in place at both ends of BUF, payload just before the frame, payload just after it. -/
theorem witness_SerCompletes :
    ∀ s ∈ [serG 8 0, serG 248 240, serG 0 4, serG 16 0],
      s.len.toNat = payloadG.length ∧ s.src.toNat + s.len.toNat ≤ 2 ^ s.params.bufLog2.toNat ∧
      s.dst.toNat + 12 + s.len.toNat ≤ 2 ^ s.params.bufLog2.toNat ∧
      (s.len.toNat = 0 ∨ s.src.toNat + s.len.toNat ≤ s.dst.toNat ∨ s.dst.toNat + 12 + s.len.toNat ≤ s.src.toNat ∨
        s.src.toNat = s.dst.toNat + 8) ∧
      lettersOnly s.typeCode ∧ s.buf.holds s.src.toNat payloadG := by decide +kernel

/-- E9: no payload, the frame at the end of BUF. -/
theorem witness_SerCompletes_empty :
    let s := start [] [(.typeCode, 0x52755374), (.dst, 244)]
    s.len.toNat = ([] : List Byte).length ∧ s.src.toNat + s.len.toNat ≤ 2 ^ s.params.bufLog2.toNat ∧
      s.dst.toNat + 12 + s.len.toNat ≤ 2 ^ s.params.bufLog2.toNat ∧ s.len.toNat = 0 ∧ lettersOnly s.typeCode ∧
      s.buf.holds s.src.toNat [] := by decide +kernel

/-- E7 or C7's window, E10, E3, E6. -/
theorem witness_SerErrorsInOrder :
    (let s := serG 253 0
     2 ^ s.params.bufLog2.toNat < s.src.toNat + s.len.toNat) ∧
    (let s := start [] [(.dst, 245)]
     2 ^ s.params.bufLog2.toNat < s.dst.toNat + 12 + s.len.toNat) ∧
    (let s := serG 0 2
     s.src.toNat + s.len.toNat ≤ 2 ^ s.params.bufLog2.toNat ∧ s.dst.toNat + 12 + s.len.toNat ≤ 2 ^ s.params.bufLog2.toNat ∧
       (∃ x, s.src.toNat ≤ x ∧ x < s.src.toNat + s.len.toNat ∧ s.dst.toNat ≤ x ∧ x < s.dst.toNat + 12 + s.len.toNat) ∧
       s.src.toNat ≠ s.dst.toNat + 8) ∧
    (let s := start [] [(.typeCode, 0x52753174), (.src, 100), (.len, 4)]
     s.src.toNat + s.len.toNat ≤ 2 ^ s.params.bufLog2.toNat ∧ s.dst.toNat + 12 + s.len.toNat ≤ 2 ^ s.params.bufLog2.toNat ∧
       (∀ x, s.src.toNat ≤ x → x < s.src.toNat + s.len.toNat → x < s.dst.toNat ∨ s.dst.toNat + 12 + s.len.toNat ≤ x) ∧
       ¬ lettersOnly s.typeCode) := by
  refine ⟨by decide +kernel, by decide +kernel, ⟨by decide +kernel, by decide +kernel, ⟨3, by decide +kernel⟩,
    by decide +kernel⟩, by decide +kernel, by decide +kernel, fun x hx _ => .inr (Nat.le_trans ?_ hx), by decide +kernel⟩
  decide +kernel

/-- Q1 and Q2 for G: a window that ends with the frame and one that goes on. -/
theorem witness_ParseCompletes :
    ∀ s ∈ [parseOf frameG 0 16, parseOf frameG 240 16, parseOf frameG 0 18],
      rust.alpha = true ∧ payloadG.length < 2 ^ 32 ∧ s.buf.holds s.src.toNat (serializeBytes rust payloadG) ∧
        12 + payloadG.length ≤ s.len.toNat ∧ s.src.toNat + s.len.toNat ≤ 2 ^ s.params.bufLog2.toNat := by decide +kernel

/-- Q12, Q3, Q8, Q9 and Q10, B2. -/
theorem witness_ParseErrorsInOrder :
    (let s := parseOf [] 200 57
     2 ^ s.params.bufLog2.toNat < s.src.toNat + s.len.toNat) ∧
    (let s := parseOf frameG 0 7
     s.src.toNat + s.len.toNat ≤ 2 ^ s.params.bufLog2.toNat ∧ s.len.toNat < 8) ∧
    (let s := parseOf (be32 42 ++ [0x12, 0x75, 0x53, 0x74]) 0 8
     s.src.toNat + s.len.toNat ≤ 2 ^ s.params.bufLog2.toNat ∧ 8 ≤ s.len.toNat ∧
       s.buf.holds s.src.toNat (be32 42 ++ (TypeCode.mk 0x12 0x75 0x53 0x74).bytes) ∧
       (TypeCode.mk 0x12 0x75 0x53 0x74).alpha = false) ∧
    (let s := parseOf (be32 0xFFFFFFFF ++ rust.bytes) 0 16
     s.src.toNat + s.len.toNat ≤ 2 ^ s.params.bufLog2.toNat ∧ 8 ≤ s.len.toNat ∧
       s.buf.holds s.src.toNat (be32 0xFFFFFFFF ++ rust.bytes) ∧ rust.alpha = true ∧ s.len.toNat < 12 + (0xFFFFFFFF : Word).toNat) ∧
    (let s := parseOf (be32 0 ++ rust.bytes) 0 11
     s.src.toNat + s.len.toNat ≤ 2 ^ s.params.bufLog2.toNat ∧ 8 ≤ s.len.toNat ∧
       s.buf.holds s.src.toNat (be32 0 ++ rust.bytes) ∧ rust.alpha = true ∧ s.len.toNat < 12 + (0 : Word).toNat) ∧
    (let s := parseOf (flipBit frameG 15 0) 0 16
     s.src.toNat + s.len.toNat ≤ 2 ^ s.params.bufLog2.toNat ∧ 8 ≤ s.len.toNat ∧
       s.buf.holds s.src.toNat (be32 4 ++ rust.bytes) ∧ rust.alpha = true ∧ 12 + (4#32).toNat ≤ s.len.toNat ∧
       payloadG.length = (4#32).toNat ∧ s.buf.holds (s.src.toNat + 8) (payloadG ++ be32 0xFB9EB255) ∧
       (0xFB9EB255 : Word) ≠ chunkCrc rust payloadG) := by decide +kernel

theorem witness_ParseRefinesParseBytes :
    (let s := parseOf iend 54 12
     s.len.toNat = iend.length ∧ s.src.toNat + s.len.toNat ≤ 2 ^ s.params.bufLog2.toNat ∧ s.buf.holds s.src.toNat iend) ∧
    parseBytes iend = .ok ⟨0, ⟨0x49, 0x45, 0x4E, 0x44⟩, [], 0xAE426082⟩ ∧
    (let s := parseOf [] 0 0
     s.len.toNat = ([] : List Byte).length ∧ s.src.toNat + s.len.toNat ≤ 2 ^ s.params.bufLog2.toNat ∧
       s.buf.holds s.src.toNat []) ∧ parseBytes [] = .error .truncated :=
  ⟨by decide +kernel, eq_ok_of_toOption (by decide +kernel), by decide +kernel, rfl⟩

theorem witness_SerThenParse :
    let s := serG 8 0
    s.len.toNat = payloadG.length ∧ s.buf.holds s.src.toNat payloadG ∧
      (∃ t, t.status.errCode = .ok ∧ exec (.ser true) s = .next t) ∧ 12 + payloadG.length ≤ (16#32).toNat ∧
      s.dst.toNat + (16#32).toNat ≤ 2 ^ s.params.bufLog2.toNat :=
  ⟨by decide +kernel, by decide +kernel, exists_of_succeeds (by decide +kernel), by decide, by decide +kernel⟩

theorem witness_FieldsAreBigEndian :
    (∃ t, t.status.errCode = .ok ∧ exec (.ser false) (serG 16 0) = .next t) ∧
      (∃ t, t.status.errCode = .ok ∧ exec (.parse false) (parseOf iend 244 12) = .next t) :=
  ⟨exists_of_succeeds (by decide +kernel), exists_of_succeeds (by decide +kernel)⟩

theorem witness_CrcCoversTypeAndData :
    (∃ t, exec (.ser true) (serG 8 0) = .next t ∧ (decide (t.status.errCode = .ok) &&
        decide ((rust.bytes ++ payloadG).length = 4 + t.resLen.toNat) &&
        decide (t.buf.holds ((serG 8 0).dst.toNat + 4) (rust.bytes ++ payloadG))) = true) ∧
      (∃ t, exec (.parse true) (parseOf frameG 0 16) = .next t ∧ (decide (t.status.errCode = .ok) &&
        decide ((rust.bytes ++ payloadG).length = 4 + t.resLen.toNat) &&
        decide ((parseOf frameG 0 16).buf.holds ((parseOf frameG 0 16).src.toNat + 4) (rust.bytes ++ payloadG))) = true) :=
  ⟨exists_next_of_ends (by decide +kernel), exists_next_of_ends (by decide +kernel)⟩

theorem witness_FramerIgnoresCrcStateAndInit :
    (∃ t, exec (.ser true) (serG 8 0) = .next t) ∧ (∃ t, exec (.parse false) (parseOf frameG 0 16) = .next t) :=
  ⟨(exists_of_succeeds (by decide +kernel)).imp fun _ h => h.2, (exists_of_succeeds (by decide +kernel)).imp fun _ h => h.2⟩

/-! ## Witnesses: the command engine -/

theorem witness_IllegalWordCompletes :
    State.reset.phase = .idle ∧ ([0, 4, 0x21, 0x0F, 0xFFFFFFFF] : List Word).all (fun v =>
      decide (v.toNat % 16 = 0 ∨ 4 ≤ v.toNat % 16 ∨ v.toNat / 32 ≠ 0)) = true := by decide +kernel

theorem witness_FailureChangesOnlyStatus :
    (Instr.ser true).isCommand = true ∧ ∃ t, exec (.ser true) (serG 0 0) = .next t ∧ t.status.errCode ≠ .ok :=
  ⟨rfl, exists_of_fails (by decide +kernel)⟩

theorem witness_CompletionStatusAndClearing :
    (Instr.crc true).isCommand = true ∧ ∃ t, exec (.crc true) { crcOf 0 0 9 with status := status506.status } = .next t :=
  ⟨rfl, (exists_of_succeeds (by decide +kernel)).imp fun _ h => h.2⟩

theorem witness_CommandFrame :
    ∃ t, t.status.errCode = .ok ∧ exec (.ser false) (serG 8 0) = .next t ∧ (Instr.ser false).isCommand = true ∧
      (∀ init, Instr.ser false ≠ .crc init) ∧ (∃ u, exec (.crc true) (crcOf 0 0 9) = .next u) ∧
      (∀ init, Instr.crc true ≠ .ser init ∧ Instr.crc true ≠ .parse init) ∧ (15 < 0 ∨ 0 + 12 + 4 ≤ 16) :=
  let ⟨t, hc, ht⟩ := exists_of_succeeds (o := exec (.ser false) (serG 8 0)) (by decide +kernel)
  ⟨t, hc, ht, rfl, nofun, (exists_of_succeeds (by decide +kernel)).imp fun _ h => h.2, fun _ => ⟨nofun, nofun⟩, by decide⟩

/-- A write that changes IER, a command that changes CRC_STATE, and one that changes RES_SIZE and a byte of BUF. -/
theorem witness_OnlyNamedWritersChangeState :
    (∃ t, exec (.wrIer 7) State.reset = .next t ∧ decide (t.ier ≠ State.reset.ier) = true) ∧
      (∃ t, exec (.crc true) (crcOf 0 0 9) = .next t ∧ decide (t.crcState ≠ (crcOf 0 0 9).crcState) = true) ∧
      (∃ t, exec (.ser true) (serG 8 0) = .next t ∧
        (decide (t.resSize ≠ (serG 8 0).resSize) && decide (t.buf.read 3 ≠ (serG 8 0).buf.read 3)) = true) :=
  ⟨exists_next_of_ends (by decide), exists_next_of_ends (by decide +kernel), exists_next_of_ends (by decide +kernel)⟩

/-- An accepted CTRL write, a completion, and a reset while busy. -/
def issues : State := { State.reset with events := [.host ⟨0, .write4 0x21⟩] }

theorem witness_PhaseLifecycle :
    (issues.phase = .idle ∧ decodeRequest issues.params ⟨0, .write4 0x21⟩ = .ok (.wrCtrl 0x21) ∧
      ∃ t, step issues = .next t ∧ t.phase = .busy) ∧
    ((State.reset.placeCommand 0x21).phase = .busy ∧ ∃ t, step (State.reset.placeCommand 0x21) = .next t ∧ t.phase = .idle) ∧
    (resetWhileBusy.events = .reset :: [] ∧ ∃ t, step resetWhileBusy = .next t ∧ t.phase = .idle) :=
  ⟨⟨rfl, rfl, _, rfl, rfl⟩, ⟨rfl, _, rfl, rfl⟩, rfl, _, rfl, rfl⟩

/-- A dropped write between issue and completion. -/
def dropsWrite : State := { State.reset.issue 0x11 with events := [.host ⟨0x14, .write4 5⟩] }

theorem witness_InputsFixedWhileBusy :
    dropsWrite.phase = .busy ∧ ∃ t, step dropsWrite = .next t ∧ t.phase = .busy := ⟨rfl, _, rfl, rfl⟩

theorem witness_PendingCommandCompletes : dropsWrite.phase = .busy ∧ ∀ e ∈ dropsWrite.events, e ≠ .reset := by decide

/-- Another BUF that agrees on the payload. -/
theorem witness_CommandsReadOnlyTheirWindow :
    let s := serG 8 0
    (Instr.ser true).isCommand = true ∧ ∀ a, s.src.toNat ≤ a → a < s.src.toNat + s.len.toNat →
      Memory.read (placed 8 (payloadG ++ [1, 2, 3])) a = s.buf.read a := by
  refine ⟨rfl, fun a h1 h2 => ?_⟩
  have h : ∀ k, k < 4 →
      Memory.read (placed 8 (payloadG ++ [1, 2, 3])) (8 + k) = (serG 8 0).buf.read (8 + k) := by decide +kernel
  have h8 : (serG 8 0).src.toNat = 8 := by decide +kernel
  have h4 : (serG 8 0).len.toNat = 4 := by decide +kernel
  rw [h8] at h1 h2
  rw [h4] at h2
  have := h (a - 8) (by omega)
  rwa [show 8 + (a - 8) = a by omega] at this

theorem witness_CommandOnUnwrittenWindowFaults :
    (let s := start [(0, 1)] [(.len, 9)]
     s.src.toNat + s.len.toNat ≤ 2 ^ s.params.bufLog2.toNat ∧ s.src.toNat ≤ 7 ∧ 7 < s.src.toNat + s.len.toNat ∧
       s.buf.read 7 = none ∧ 8 ≤ s.len.toNat ∧ 7 < s.src.toNat + 8) ∧
    (let s := start [] [(.typeCode, 0x52755374), (.src, 8), (.len, 4)]
     s.src.toNat + s.len.toNat ≤ 2 ^ s.params.bufLog2.toNat ∧ s.src.toNat ≤ 11 ∧ 11 < s.src.toNat + s.len.toNat ∧
       s.buf.read 11 = none ∧ s.dst.toNat + 12 + s.len.toNat ≤ 2 ^ s.params.bufLog2.toNat ∧ lettersOnly s.typeCode ∧
       s.src.toNat = s.dst.toNat + 8) := by decide +kernel

/-- The frame G without its payload and CRC: the first and the last byte past the header. -/
theorem witness_CommandOnUnwrittenWindowFaults_past_header :
    let s := parseOf (be32 4 ++ rust.bytes) 0 16
    s.src.toNat + s.len.toNat ≤ 2 ^ s.params.bufLog2.toNat ∧ s.buf.holds s.src.toNat (be32 4 ++ rust.bytes) ∧
      rust.alpha = true ∧ 12 + (4#32).toNat ≤ s.len.toNat ∧
      (s.src.toNat ≤ 8 ∧ 8 < s.src.toNat + s.len.toNat ∧ 8 < s.src.toNat + 12 + (4#32).toNat ∧ s.buf.read 8 = none) ∧
      (s.src.toNat ≤ 15 ∧ 15 < s.src.toNat + s.len.toNat ∧ 15 < s.src.toNat + 12 + (4#32).toNat ∧
        s.buf.read 15 = none) := by decide +kernel

/-! ## Witnesses: the host bus -/

theorem witness_CtrlWriteIssues : State.reset.phase = .idle ∧ dropsWrite.phase = .busy := by decide

theorem witness_StatusWriteOneToClear : status506.readReg .status = 0x506 := by decide

theorem witness_OperandWriteStores : State.reset.phase = .idle := rfl

/-- Inside a pending SER's window at both ends, and just past it. -/
theorem witness_RbAnswersByte :
    let s := (serG 16 0).issue 0x12
    (∀ a ∈ [0, 15], a < 2 ^ s.params.bufLog2.toNat ∧ s.phase = .busy ∧ (s.ctrl = 0x02 ∨ s.ctrl = 0x12) ∧
      s.dst.toNat ≤ a ∧ a < s.dst.toNat + 12 + s.len.toNat) ∧
    ¬ (s.phase = .busy ∧ (s.ctrl = 0x02 ∨ s.ctrl = 0x12) ∧ s.dst.toNat ≤ 16 ∧ 16 < s.dst.toNat + 12 + s.len.toNat) ∧
    16 < 2 ^ s.params.bufLog2.toNat ∧ s.buf.read 16 = some 0xD4 ∧
    ¬ (s.phase = .busy ∧ (s.ctrl = 0x02 ∨ s.ctrl = 0x12) ∧ s.dst.toNat ≤ 255 ∧ 255 < s.dst.toNat + 12 + s.len.toNat) ∧
    255 < 2 ^ s.params.bufLog2.toNat ∧ s.buf.read 255 = none := by decide +kernel

theorem witness_WbStoresByte : 255 < 2 ^ State.reset.params.bufLog2.toNat ∧ State.reset.phase = .idle := by decide

/-- A dropped write of each kind, and a read that leaves OVR at 1. -/
theorem witness_DropWhileBusy :
    dropsWrite.phase = .busy ∧ 255 < 2 ^ dropsWrite.params.bufLog2.toNat ∧ Reg.readOnly .cfg = true ∧
      ∃ t, exec (.rd .cfg) dropsWrite.dropWrite = .next t ∧ t.status.ovr = true :=
  ⟨rfl, by decide, rfl, _, rfl, rfl⟩

theorem witness_BusErrorChangesNothing :
    (⟨.reg, 0x04, .read .two⟩ : Transaction).access.size ≠ .four ∧ (⟨.reg, 0x06, .read .four⟩ : Transaction).offset % 4 ≠ 0 ∧
      (⟨.buf, 0, .write4 0⟩ : Transaction).access.size ≠ .one := by decide

end Sys2Proof.Machine.Test
end

section
/-! SUPPORT. What keeps the invariant of Safety.lean: each named update of State, each meaning, each step; and the statements
O7, O12 and O13. -/

namespace Sys2Proof.Machine

/-! ## BUF_SIZE, and the updates of State -/

/-- BUF is not empty (R5). -/
theorem Params.bufSize_pos (p : Params) : 0 < p.bufSize := Nat.pow_pos (by decide)

variable {s t : State}

/-- Inputs still to come are no part of the invariant. -/
theorem State.inv.withEvents (h : s.inv) (es : List Event) : ({ s with events := es } : State).inv := h

theorem State.inv.answering (h : s.inv) (a : Answer) : (s.answering a).inv := h

/-- A dropped write sets OVR, which the invariant does not speak of (R218). -/
theorem State.inv.dropWrite (h : s.inv) : s.dropWrite.inv := h

theorem State.inv.writeIer (h : s.inv) (v : Word) : (s.writeIer v).inv := h

/-- The result registers are no part of the invariant. -/
theorem State.inv.setResults (h : s.inv) (l type crc : Word) (d : Nat) : (s.setResults l type crc d).inv := h

/-- Issue sets BUSY and clears DONE at once (R141). -/
theorem State.inv.issue (h : s.inv) (v : Word) : (s.issue v).inv := by
  obtain ⟨hparams, hwf, hbelow, hsrc, hdst, -⟩ := h
  exact ⟨hparams, hwf, hbelow, hsrc, hdst, fun _ => rfl⟩

/-- A completion sets DONE and leaves the engine IDLE at once (R142). -/
theorem State.inv.finish (h : s.inv) (c : ErrCode) : (s.finish c).inv := by
  obtain ⟨hparams, hwf, hbelow, hsrc, hdst, -⟩ := h
  exact ⟨hparams, hwf, hbelow, hsrc, hdst, fun hbusy => by simp at hbusy⟩

/-- A write to STATUS sets no bit (R213). -/
theorem State.inv.writeStatus (h : s.inv) (v : Word) : (s.writeStatus v).inv := by
  obtain ⟨hparams, hwf, hbelow, hsrc, hdst, hdone⟩ := h
  refine ⟨hparams, hwf, hbelow, hsrc, hdst, fun hbusy => ?_⟩
  have hdone : s.status.done = false := hdone hbusy
  simp [hdone]

/-- A masked value is an address of BUF (R25, R26, R215). -/
theorem maskAddr_lt (p : Params) (v : Word) : (maskAddr p v).toNat < p.bufSize := by
  rw [maskAddr_toNat]
  exact Nat.mod_lt _ (Params.bufSize_pos p)

/-- SRC and DST take masked values (R215). -/
theorem State.inv.setOperand (h : s.inv) (r : OperandReg) (v : Word) : (s.setOperand r v).inv := by
  obtain ⟨hparams, hwf, hbelow, hsrc, hdst, hdone⟩ := h
  cases r with
  | src => exact ⟨hparams, hwf, hbelow, maskAddr_lt s.params v, hdst, hdone⟩
  | dst => exact ⟨hparams, hwf, hbelow, hsrc, maskAddr_lt s.params v, hdone⟩
  | len | typeCode | crcState => exact ⟨hparams, hwf, hbelow, hsrc, hdst, hdone⟩

/-- A byte written at an address of BUF (R217). -/
theorem State.inv.writeByte (h : s.inv) {a : Nat} (w : Byte) (ha : a < s.bufSize) :
    ({ s with buf := s.buf.write a w } : State).inv := by
  obtain ⟨hparams, hwf, hbelow, hregs⟩ := h
  exact ⟨hparams, Memory.write_wf a w hwf, Memory.write_below w ha hbelow, hregs⟩

/-- A window written inside BUF (R77). -/
theorem State.inv.writeBytes (h : s.inv) {a : Nat} {bytes : List Byte} (ha : a + bytes.length ≤ s.bufSize) :
    ({ s with buf := s.buf.writeBytes a bytes } : State).inv := by
  obtain ⟨hparams, hwf, hbelow, hregs⟩ := h
  exact ⟨hparams, Memory.writeBytes_wf bytes a hwf, Memory.writeBytes_below bytes a ha hbelow, hregs⟩

/-- A reset needs only parameters that R5 and R70 allow. -/
theorem State.hardReset_inv (hparams : s.params.wf = true) : s.hardReset.inv :=
  ⟨hparams, List.Pairwise.nil, rfl, Params.bufSize_pos s.params, Params.bufSize_pos s.params, fun _ => rfl⟩

/-! ## The commands -/

/-- The effects of a CRC are on CRC_STATE only (R165). -/
theorem State.inv.runCrc (h : s.inv) {init : Bool} {s' : State} (hr : s.runCrc init = .effects s') : s'.inv := by
  rcases s.runCrc_cases init with ⟨-, he⟩ | ⟨-, ⟨x, -, he⟩ | ⟨bytes, -, he⟩⟩ <;> rw [he] at hr <;> cases hr
  exact h

/-- The frame a SER writes has the 12 + LEN bytes whose range it checked (R183). -/
theorem State.inv.runSer (h : s.inv) {s' : State} (hr : s.runSer = .effects s') : s'.inv := by
  rcases s.runSer_cases with
    ⟨-, he⟩ | ⟨-, -, he⟩ | ⟨-, hfit, ⟨-, he⟩ | ⟨-, ⟨-, he⟩ | ⟨-, ⟨x, -, he⟩ | ⟨data, hread, he⟩⟩⟩⟩ <;>
    rw [he] at hr <;> cases hr
  obtain ⟨hlen, -⟩ := Memory.readBytes_eq_ok.1 hread
  have hframe : s.dst.toNat + (serializeBytes (unpack s.typeCode) data).length ≤ s.bufSize := by
    rw [serializeBytes_length, hlen]
    exact hfit
  exact (h.writeBytes hframe).setResults _ _ _ _

/-- The effects of a PARSE are on the result registers only (R184). -/
theorem State.inv.runParse (h : s.inv) {s' : State} (hr : s.runParse = .effects s') : s'.inv := by
  rcases s.runParse_cases with ⟨-, he⟩ | ⟨-, ⟨x, -, he⟩ | ⟨bytes, -, ⟨c, -, he⟩ | ⟨chunk, -, he⟩⟩⟩ <;>
    rw [he] at hr <;> cases hr
  exact h.setResults _ _ _ _

/-- A completion keeps the invariant when the command's effects do. -/
theorem State.inv.complete (h : s.inv) {r : CmdOutcome} (heffects : ∀ s', r = .effects s' → s'.inv)
    (hc : s.complete r = .next t) : t.inv := by
  rcases State.complete_eq_next.1 hc with ⟨c, -, rfl⟩ | ⟨s', hr, rfl⟩
  · exact h.finish c
  · exact (heffects s' hr).finish .ok

/-! ## The host transactions -/

theorem State.inv.writeCtrl (h : s.inv) (v : Word) : (s.writeCtrl v).inv := by
  rcases s.writeCtrl_cases v with ⟨-, he⟩ | ⟨-, he⟩ <;> rw [he]
  · exact h.dropWrite
  · exact (h.issue v).answering .okay

theorem State.inv.writeOperand (h : s.inv) (r : OperandReg) (v : Word) : (s.writeOperand r v).inv := by
  rcases s.writeOperand_cases r v with ⟨-, he⟩ | ⟨-, he⟩ <;> rw [he]
  · exact h.dropWrite
  · exact (h.setOperand r v).answering .okay

/-- Whatever register a write names, the invariant stays (R211). -/
theorem State.inv.execWr (h : s.inv) {r : Reg} {v : Word} (he : execWr r v s = .next t) : t.inv := by
  cases r <;> cases he
  case ctrl => exact h.writeCtrl v
  case status => exact h.writeStatus v
  case ier => exact h.writeIer v
  case src => exact h.writeOperand .src v
  case dst => exact h.writeOperand .dst v
  case len => exact h.writeOperand .len v
  case typeCode => exact h.writeOperand .typeCode v
  case crcState => exact h.writeOperand .crcState v
  all_goals exact h.answering .okay

/-- A read of BUF changes the answer and the count of free bytes only (R216). -/
theorem State.inv.execRb (h : s.inv) {a : Nat} (he : execRb a s = .next t) : t.inv := by
  rcases execRb_cases a s with ⟨-, hx⟩ | ⟨-, ⟨-, hx⟩ | ⟨-, ⟨-, hx⟩ | ⟨b, -, hx⟩⟩⟩ <;> rw [hx] at he <;> cases he
  all_goals exact h

theorem State.inv.execWb (h : s.inv) {a : Nat} {w : Byte} (he : execWb a w s = .next t) : t.inv := by
  rcases execWb_cases a w s with ⟨-, hx⟩ | ⟨-, -, hx⟩ | ⟨ha, -, hx⟩ <;> rw [hx] at he <;> cases he
  · exact h.answering .error
  · exact h.dropWrite
  · exact (h.writeByte w ha).answering .okay

/-! ## Every instruction, and the statements -/

/-- Every instruction that answers a next state keeps the invariant, in any phase. -/
theorem State.inv.exec (h : s.inv) {i : Instr} (he : exec i s = .next t) : t.inv := by
  cases i with
  | crc init => exact h.complete (fun _ hr => h.runCrc hr) he
  | ser init => exact h.complete (fun _ hr => h.runSer hr) he
  | parse init => exact h.complete (fun _ hr => h.runParse hr) he
  | illegal word => exact h.complete (r := .raise .illegalCmd) (fun _ hr => by cases hr) he
  | rd r => cases he; exact h.answering _
  | wr r v => exact h.execWr he
  | wrCtrl v => cases he; exact h.writeCtrl v
  | wrStatus v => cases he; exact h.writeStatus v
  | wrIer v => cases he; exact h.writeIer v
  | wrOperand r v => cases he; exact h.writeOperand r v
  | rb a => exact h.execRb he
  | wb a w => exact h.execWb he
  | busError tuple => cases he; exact h.answering .error

/-- Settles O12: by the kinds of step; a reset keeps the parameters, and any other step is an instruction or leaves all but the
inputs as it was. -/
theorem stepKeepsInvariant : Obligations.StepKeepsInvariant := by
  intro s t h ht
  rcases step_cases s with ⟨r, rest, i, -, -, hs⟩ | ⟨r, rest, e, -, -, hs⟩ | ⟨rest, -, -, hs⟩ | ⟨rest, -, -, hs⟩ | ⟨rest, -, hs⟩
  · exact (h.withEvents rest).exec (hs.symm.trans ht)
  · cases hs.symm.trans ht; exact h.withEvents rest
  · exact (h.withEvents rest).exec (hs.symm.trans ht)
  · cases hs.symm.trans ht; exact h.withEvents rest
  · cases hs.symm.trans ht; exact State.hardReset_inv h.1

/-- Settles O7: a request at the head of the inputs that decodes is the step's turn. -/
theorem stepRunsDecodedTransaction : Obligations.StepRunsDecodedTransaction := by
  intro s r rest i hevents hdecode
  have hturn : s.turn = .run i { s with events := rest } := by simp [State.turn, hevents, hdecode]
  simp [step, hturn]

/-- Settles O13: the reset state is what a reset leaves of itself, and its parameters are allowed ones. -/
theorem resetMeetsInvariant : Obligations.ResetMeetsInvariant :=
  State.hardReset_inv (s := State.reset) (by decide)

end Sys2Proof.Machine
end

section
/-! SUPPORT. Everything an instruction can do to the state, as one inductive relation, and what follows from it for the result
registers, the constants and the writers of each register; the computed registers; and the statements O15, O16, O22, O38, O43,
O50 and O60 of 10_state.md. -/

namespace Sys2Proof.Machine

/-! ## Everything an instruction can do -/

/-- `Effect s i t`: from `s`, the instruction `i` may answer `t`. Each constructor is one way an instruction of exec can end,
with the guards under which it does. -/
inductive Effect (s : State) : Instr → State → Prop
  /-- A command ends with a code and without effects (R143). -/
  | raises {i : Instr} (c : ErrCode) (hi : i.isCommand = true) : Effect s i (s.finish c)
  /-- CRC_STATE takes a new value (R165). -/
  | crc (init : Bool) (v : Word) : Effect s (.crc init) (({ s with crcState := v } : State).finish .ok)
  /-- A frame is written inside BUF and described (R183). -/
  | ser (init : Bool) (data : List Byte) (halpha : (unpack s.typeCode).alpha = true)
      (hfit : s.dst.toNat + (12 + s.len.toNat) ≤ s.bufSize)
      (hread : s.buf.readBytes s.src.toNat s.len.toNat = .ok data) :
      Effect s (.ser init) ((({ s with
        buf := s.buf.writeBytes s.dst.toNat (serializeBytes (unpack s.typeCode) data) } : State).setResults
          s.len s.typeCode (chunkCrc (unpack s.typeCode) data) s.dst.toNat).finish .ok)
  /-- A frame inside the window is described (R184). -/
  | parse (init : Bool) (chunk : Chunk) (halpha : chunk.type.alpha = true)
      (hfit : s.src.toNat + (12 + chunk.len.toNat) ≤ s.bufSize) :
      Effect s (.parse init) ((s.setResults chunk.len chunk.type.pack chunk.crc s.src.toNat).finish .ok)
  /-- A host transaction is answered and nothing else happens (R210, R211, R216, R219). -/
  | answers {i : Instr} (a : Answer) (hi : i.isCommand = false) : Effect s i (s.answering a)
  /-- A free byte is drawn (R84, R216). -/
  | draws (a : Nat) (b : Byte) :
      Effect s (.rb a) (({ s with freeCount := s.freeCount + 1 } : State).answering (.okayByte b))
  /-- A write is dropped while busy (R218). -/
  | drops {i : Instr} (hi : i.isCommand = false) (hbusy : s.phase = .busy) : Effect s i s.dropWrite
  /-- A command is issued (R141, R212). -/
  | issues {i : Instr} (v : Word) (hi : i = .wrCtrl v ∨ i = .wr .ctrl v) (hidle : s.phase = .idle) :
      Effect s i ((s.issue v).answering .okay)
  /-- STATUS is written (R213). -/
  | writesStatus {i : Instr} (v : Word) (hi : i = .wrStatus v ∨ i = .wr .status v) : Effect s i (s.writeStatus v)
  /-- IER is written (R214). -/
  | writesIer {i : Instr} (v : Word) (hi : i = .wrIer v ∨ i = .wr .ier v) : Effect s i (s.writeIer v)
  /-- An operand register is written (R215). -/
  | writesOperand {i : Instr} (r : OperandReg) (v : Word) (hi : i = .wrOperand r v ∨ i = .wr r.reg v)
      (hidle : s.phase = .idle) : Effect s i ((s.setOperand r v).answering .okay)
  /-- A byte of BUF is written (R217). -/
  | writesByte (a : Nat) (w : Byte) (ha : a < s.bufSize) (hidle : s.phase = .idle) :
      Effect s (.wb a w) (({ s with buf := s.buf.write a w } : State).answering .okay)

variable {s t : State} {i : Instr}

/-- PARSE reads no more bytes than its window has (R184). -/
theorem Memory.readFrame_length_le {m : Memory} {b n : Nat} {bytes : List Byte} (h : m.readFrame b n = .ok bytes) :
    bytes.length ≤ n := by
  rcases m.readFrame_cases b n with ⟨-, hf⟩ | ⟨h8, ⟨x, -, hf⟩ | ⟨l, t, hheader, ⟨-, hf⟩ | ⟨-, hn, hf⟩⟩⟩ <;> rw [hf] at h
  · cases h; exact Nat.zero_le n
  · cases h
  · cases h; exact h8
  · rw [(Memory.readBytes_eq_ok.1 h).1]; exact hn

/-- A frame that `parse_bytes` accepts is no longer than the bytes it was given (R182). -/
theorem parseBytes_ok_len_le {bytes : List Byte} {chunk : Chunk} (h : parseBytes bytes = .ok chunk) :
    12 + chunk.len.toNat ≤ bytes.length := by
  obtain ⟨-, hlen, -, rest, rfl⟩ := parseBytes_eq_ok.1 h
  simp [hlen]

/-- A command's completion: the error, or the effects of its computation (R142). -/
theorem Effect.of_complete {r : CmdOutcome} (hi : i.isCommand = true)
    (heffects : ∀ s', r = .effects s' → Effect s i (s'.finish .ok)) (h : s.complete r = .next t) : Effect s i t := by
  rcases State.complete_eq_next.1 h with ⟨c, -, rfl⟩ | ⟨s', hr, rfl⟩
  · exact .raises c hi
  · exact heffects s' hr

theorem Effect.of_runCrc {init : Bool} {s' : State} (hr : s.runCrc init = .effects s') :
    Effect s (.crc init) (s'.finish .ok) := by
  rcases s.runCrc_cases init with ⟨-, he⟩ | ⟨-, ⟨x, -, he⟩ | ⟨bytes, -, he⟩⟩ <;> rw [he] at hr <;> cases hr
  exact .crc init _

theorem Effect.of_runSer (init : Bool) {s' : State} (hr : s.runSer = .effects s') :
    Effect s (.ser init) (s'.finish .ok) := by
  rcases s.runSer_cases with
    ⟨-, he⟩ | ⟨-, -, he⟩ | ⟨-, hfit, ⟨-, he⟩ | ⟨-, ⟨-, he⟩ | ⟨halpha, ⟨x, -, he⟩ | ⟨data, hread, he⟩⟩⟩⟩ <;>
    rw [he] at hr <;> cases hr
  exact .ser init data halpha hfit hread

theorem Effect.of_runParse (init : Bool) {s' : State} (hr : s.runParse = .effects s') :
    Effect s (.parse init) (s'.finish .ok) := by
  rcases s.runParse_cases with ⟨-, he⟩ | ⟨hrange, ⟨x, -, he⟩ | ⟨bytes, hread, ⟨c, -, he⟩ | ⟨chunk, hparse, he⟩⟩⟩ <;>
    rw [he] at hr <;> cases hr
  have hwindow : bytes.length ≤ s.len.toNat := Memory.readFrame_length_le hread
  have hframe : 12 + chunk.len.toNat ≤ bytes.length := parseBytes_ok_len_le hparse
  exact .parse init chunk (parseBytes_eq_ok.1 hparse).1 (by omega)

theorem Effect.of_writeCtrl {v : Word} (hi : i = .wrCtrl v ∨ i = .wr .ctrl v) : Effect s i (s.writeCtrl v) := by
  rcases s.writeCtrl_cases v with ⟨hbusy, he⟩ | ⟨hidle, he⟩ <;> rw [he]
  · exact .drops (by rcases hi with rfl | rfl <;> rfl) hbusy
  · exact .issues v hi hidle

theorem Effect.of_writeOperand {r : OperandReg} {v : Word} (hi : i = .wrOperand r v ∨ i = .wr r.reg v) :
    Effect s i (s.writeOperand r v) := by
  rcases s.writeOperand_cases r v with ⟨hbusy, he⟩ | ⟨hidle, he⟩ <;> rw [he]
  · exact .drops (by rcases hi with rfl | rfl <;> rfl) hbusy
  · exact .writesOperand r v hi hidle

/-- The dispatch of R211, register by register. -/
theorem Effect.of_execWr {r : Reg} {v : Word} (h : execWr r v s = .next t) : Effect s (.wr r v) t := by
  cases r <;> cases h
  case ctrl => exact .of_writeCtrl (.inr rfl)
  case status => exact .writesStatus v (.inr rfl)
  case ier => exact .writesIer v (.inr rfl)
  case src => exact .of_writeOperand (r := .src) (.inr rfl)
  case dst => exact .of_writeOperand (r := .dst) (.inr rfl)
  case len => exact .of_writeOperand (r := .len) (.inr rfl)
  case typeCode => exact .of_writeOperand (r := .typeCode) (.inr rfl)
  case crcState => exact .of_writeOperand (r := .crcState) (.inr rfl)
  all_goals exact .answers .okay rfl

theorem Effect.of_execRb {a : Nat} (h : execRb a s = .next t) : Effect s (.rb a) t := by
  rcases execRb_cases a s with ⟨-, he⟩ | ⟨-, ⟨-, he⟩ | ⟨-, ⟨-, he⟩ | ⟨b, -, he⟩⟩⟩ <;> rw [he] at h <;> cases h
  · exact .answers .error rfl
  · exact .draws a _
  · exact .answers (.okayByte b) rfl

theorem Effect.of_execWb {a : Nat} {w : Byte} (h : execWb a w s = .next t) : Effect s (.wb a w) t := by
  rcases execWb_cases a w s with ⟨-, he⟩ | ⟨-, hbusy, he⟩ | ⟨ha, hidle, he⟩ <;> rw [he] at h <;> cases h
  · exact .answers .error rfl
  · exact .drops rfl hbusy
  · exact .writesByte a w ha hidle

/-- The relation covers exec. -/
theorem Effect.of_exec (h : exec i s = .next t) : Effect s i t := by
  cases i with
  | crc init => exact .of_complete rfl (fun _ hr => .of_runCrc hr) h
  | ser init => exact .of_complete rfl (fun _ hr => .of_runSer init hr) h
  | parse init => exact .of_complete rfl (fun _ hr => .of_runParse init hr) h
  | illegal word => exact .of_complete (r := .raise .illegalCmd) rfl (fun _ hr => by cases hr) h
  | rd r => cases h; exact .answers _ rfl
  | wr r v => exact .of_execWr h
  | wrCtrl v => cases h; exact .of_writeCtrl (.inl rfl)
  | wrStatus v => cases h; exact .writesStatus v (.inl rfl)
  | wrIer v => cases h; exact .writesIer v (.inl rfl)
  | wrOperand r v => cases h; exact .of_writeOperand (.inl rfl)
  | rb a => exact .of_execRb h
  | wb a w => exact .of_execWb h
  | busError tuple => cases h; exact .answers .error rfl

/-- The one case split over a step: what does not speak of the inputs, a reset keeps and every instruction keeps, a step
keeps. -/
theorem step_keeps {P : State → Prop} (hevents : ∀ s es, P s → P { s with events := es })
    (hreset : ∀ s, P s → P s.hardReset) (hexec : ∀ s i t, P s → exec i s = .next t → P t)
    (h : P s) (ht : step s = .next t) : P t := by
  rcases step_cases s with
    ⟨r, rest, i, -, -, hs⟩ | ⟨r, rest, e, -, -, hs⟩ | ⟨rest, -, -, hs⟩ | ⟨rest, -, -, hs⟩ | ⟨rest, -, hs⟩
  · exact hexec _ i t (hevents s rest h) (hs.symm.trans ht)
  · cases hs.symm.trans ht; exact hevents s rest h
  · exact hexec _ _ t (hevents s rest h) (hs.symm.trans ht)
  · cases hs.symm.trans ht; exact hevents s rest h
  · cases hs.symm.trans ht; exact hreset _ (hevents s rest h)

/-! ## The result registers (R32 to R36) -/

/-- Results set for a frame of letters inside BUF describe it: no sum passes 2^32, since BUF has at most 2^31 bytes. -/
theorem State.setResults_describesFrame {l type crc : Word} {d : Nat} (halpha : (unpack type).alpha = true)
    (hfit : d + (12 + l.toNat) ≤ s.bufSize) : (s.setResults l type crc d).resultsDescribeFrame := by
  have hbuf : s.bufSize ≤ 2 ^ 31 := s.bufSize_le
  have hdata : (BitVec.ofNat 32 (d + 8)).toNat = d + 8 := Nat.mod_eq_of_lt (by omega)
  have hsize : (BitVec.ofNat 32 (12 + l.toNat)).toNat = 12 + l.toNat := Nat.mod_eq_of_lt (by omega)
  refine .inr ⟨halpha, hsize, ?_, ?_⟩
  · rw [State.setResults_resData, hdata]; exact Nat.le_add_left 8 d
  · rw [State.setResults_resData, State.setResults_resSize, hdata, hsize]; exact hfit

/-- A completion changes no result register. -/
theorem State.resultsDescribeFrame.finish (h : s.resultsDescribeFrame) (c : ErrCode) :
    (s.finish c).resultsDescribeFrame := h

/-- Only SER and PARSE set the result registers, each for a frame inside BUF. -/
theorem Effect.keeps_resultsDescribeFrame (he : Effect s i t) (h : s.resultsDescribeFrame) : t.resultsDescribeFrame := by
  cases he with
  | ser init data halpha hfit =>
    exact (State.setResults_describesFrame (s := { s with buf := _ }) halpha hfit).finish .ok
  | parse init chunk halpha hfit =>
    exact (State.setResults_describesFrame (by rwa [unpack_pack]) hfit).finish .ok
  | writesOperand r v => cases r <;> exact h
  | raises | crc | answers | draws | drops | issues | writesStatus | writesIer | writesByte => exact h

/-- Settles O15: a reset zeroes the result registers, and every instruction keeps them describing a frame. -/
theorem stepKeepsResultsDescribingFrame : Obligations.StepKeepsResultsDescribingFrame := by
  intro s t h ht
  refine step_keeps (fun _ _ h => h) (fun _ _ => ?_) (fun _ _ _ h he => ?_) h ht
  · exact .inl ⟨rfl, rfl, rfl, rfl, rfl⟩
  · exact (Effect.of_exec he).keeps_resultsDescribeFrame h

/-! ## The constants (R5, R37) -/

/-- No instruction changes the parameters or the inputs still to come. -/
theorem Effect.params_events (he : Effect s i t) : t.params = s.params ∧ t.events = s.events := by
  cases he with
  | writesOperand r v => cases r <;> exact ⟨rfl, rfl⟩
  | _ => exact ⟨rfl, rfl⟩

/-- No step, a reset among them, changes the parameters. -/
theorem step_params (ht : step s = .next t) : t.params = s.params :=
  step_keeps (P := fun u => u.params = s.params) (fun _ _ h => h) (fun _ h => h)
    (fun _ _ _ h he => (Effect.of_exec he).params_events.1.trans h) rfl ht

/-- CFG is BUF_LOG2 under 27 zero bits (R37). -/
theorem State.cfgWord_getLsbD (s : State) (j : Nat) :
    s.cfgWord.getLsbD j = (decide (j < 5) && s.params.bufLog2.getLsbD j) := by
  rw [State.cfgWord, BitVec.getLsbD_append]
  by_cases hj : j < 5 <;> simp [hj]

/-- Settles O16: CFG is a function of the parameters, which no step changes. -/
theorem cfgIsConstant : Obligations.CfgIsConstant := by
  refine ⟨State.cfgWord_getLsbD, fun s t ht => ?_⟩
  have hparams : t.params = s.params := step_params ht
  exact ⟨by simp only [State.readReg, State.cfgWord, hparams], hparams⟩

/-! ## CRC_RESULT (R30) -/

/-- A CRC that completes with OK leaves the raw CRC of its window, from the seed INIT chooses (R165). -/
theorem crcState_of_exec_crc {init : Bool} {bytes : List Byte} (hlen : s.len.toNat = bytes.length)
    (hholds : s.buf.holds s.src.toNat bytes) (ht : exec (.crc init) s = .next t) (hok : t.status.errCode = .ok) :
    t.crcState = crcRaw (s.crcSeed init) bytes := by
  have hread : s.buf.readBytes s.src.toNat s.len.toNat = .ok bytes := Memory.readBytes_eq_ok.2 ⟨hlen.symm, hholds⟩
  have ht : s.complete (s.runCrc init) = .next t := ht
  rcases s.runCrc_cases init with ⟨-, he⟩ | ⟨-, ⟨x, hx, -⟩ | ⟨bytes', hread', he⟩⟩
  · rw [he] at ht; cases ht; cases hok
  · rw [hread] at hx; cases hx
  · rw [hread] at hread'; cases hread'
    rw [he] at ht; cases ht; rfl

/-- Settles O22: the complement of CRC_STATE by definition, and CRC_STATE after the command by `crcState_of_exec_crc`. -/
theorem crcResultIsComplement : Obligations.CrcResultIsComplement := by
  refine ⟨fun _ => rfl, fun s t bytes hlen hholds ht hok => ?_, rfl, fun s v => ⟨_, rfl, rfl⟩⟩
  show t.crcState ^^^ 0xFFFFFFFF = crc32 bytes
  rw [crcState_of_exec_crc hlen hholds ht hok]
  rfl

/-! ## CRC_STATE and the framer (R102, R180) -/

/-- What a command computes, with the state of its effects seen through `f`. -/
def CmdOutcome.mapEffects (f : State → State) : CmdOutcome → CmdOutcome
  | .stop e => .stop e
  | .raise c => .raise c
  | .effects s => .effects (f s)

@[simp] theorem CmdOutcome.mapEffects_stop (f : State → State) (e : Fault) :
    (CmdOutcome.stop e).mapEffects f = .stop e := rfl
@[simp] theorem CmdOutcome.mapEffects_raise (f : State → State) (c : ErrCode) :
    (CmdOutcome.raise c).mapEffects f = .raise c := rfl
@[simp] theorem CmdOutcome.mapEffects_effects (f : State → State) (s : State) :
    (CmdOutcome.effects s).mapEffects f = .effects (f s) := rfl

/-- A change of state that a completion does not look at passes through it. -/
theorem complete_mapEffects {f : State → State} (hf : ∀ s c, (f s).finish c = f (s.finish c)) (s : State)
    (r : CmdOutcome) : (f s).complete (r.mapEffects f) = mapNext f (s.complete r) := by
  cases r with
  | stop e => rfl
  | raise c => exact congrArg Host.Outcome.next (hf s c)
  | effects s' => exact congrArg Host.Outcome.next (hf s' .ok)

/-- The state with another CRC_STATE. -/
def State.withCrcState (c : Word) (s : State) : State := { s with crcState := c }

@[simp] theorem State.withCrcState_src (c : Word) (s : State) : (s.withCrcState c).src = s.src := rfl
@[simp] theorem State.withCrcState_dst (c : Word) (s : State) : (s.withCrcState c).dst = s.dst := rfl
@[simp] theorem State.withCrcState_len (c : Word) (s : State) : (s.withCrcState c).len = s.len := rfl
@[simp] theorem State.withCrcState_typeCode (c : Word) (s : State) : (s.withCrcState c).typeCode = s.typeCode := rfl
@[simp] theorem State.withCrcState_buf (c : Word) (s : State) : (s.withCrcState c).buf = s.buf := rfl
@[simp] theorem State.withCrcState_inRange (c : Word) (s : State) (a n : Nat) :
    (s.withCrcState c).inRange a n = s.inRange a n := rfl

/-- SER does not look at CRC_STATE: check by check, both computations go the same way (R183). -/
theorem State.withCrcState_runSer (c : Word) (s : State) :
    (s.withCrcState c).runSer = s.runSer.mapEffects (State.withCrcState c) := by
  cases hpayload : s.inRange s.src.toNat s.len.toNat
  · simp [State.runSer, hpayload]
  cases hframe : s.inRange s.dst.toNat (12 + s.len.toNat)
  · simp [State.runSer, hpayload, hframe]
  cases hoverlap : overlaps s.src.toNat s.len.toNat s.dst.toNat
  swap
  · simp [State.runSer, hpayload, hframe, hoverlap]
  cases halpha : (unpack s.typeCode).alpha
  · simp [State.runSer, hpayload, hframe, hoverlap, halpha]
  cases hread : s.buf.readBytes s.src.toNat s.len.toNat with
  | error x => simp [State.runSer, hpayload, hframe, hoverlap, halpha, hread]
  | ok data => simp [State.runSer, hpayload, hframe, hoverlap, halpha, hread]; rfl

/-- PARSE does not look at CRC_STATE: check by check, both computations go the same way (R184). -/
theorem State.withCrcState_runParse (c : Word) (s : State) :
    (s.withCrcState c).runParse = s.runParse.mapEffects (State.withCrcState c) := by
  cases hrange : s.inRange s.src.toNat s.len.toNat
  · simp [State.runParse, hrange]
  cases hread : s.buf.readFrame s.src.toNat s.len.toNat with
  | error x => simp [State.runParse, hrange, hread]
  | ok bytes =>
    cases hparse : parseBytes bytes with
    | error e => simp [State.runParse, hrange, hread, hparse]
    | ok chunk => simp [State.runParse, hrange, hread, hparse]; rfl

/-- Of the commands only CRC changes CRC_STATE (R29). -/
theorem Effect.command_crcState (he : Effect s i t) (hi : i.isCommand = true) (hcrc : ∀ init, i ≠ .crc init) :
    t.crcState = s.crcState := by
  cases he with
  | crc init v => exact absurd rfl (hcrc init)
  | writesOperand r v hwriter => rcases hwriter with rfl | rfl <;> cases hi
  | _ => rfl

/-- Settles O38: INIT is dropped by exec, and CRC_STATE passes through the computation and the completion. -/
theorem framerIgnoresCrcStateAndInit : Obligations.FramerIgnoresCrcStateAndInit := by
  intro init init' s c
  have hcomplete := complete_mapEffects (f := State.withCrcState c) (fun _ _ => rfl) s
  refine ⟨?_, ?_, fun t ht => ?_⟩
  · show (s.withCrcState c).complete (s.withCrcState c).runSer = _
    rw [s.withCrcState_runSer, hcomplete]; rfl
  · show (s.withCrcState c).complete (s.withCrcState c).runParse = _
    rw [s.withCrcState_runParse, hcomplete]; rfl
  · rcases ht with ht | ht
    · exact (Effect.of_exec ht).command_crcState rfl nofun
    · exact (Effect.of_exec ht).command_crcState rfl nofun

/-! ## The writers of each register (R43) -/

/-- Settles O43: each way an instruction can end names the one register, or the byte, it changes. -/
theorem onlyNamedWritersChangeState : Obligations.OnlyNamedWritersChangeState := by
  intro i s t ht
  cases Effect.of_exec ht with
  | raises c hi => simp [hi]
  | crc init v => simp [Instr.isCommand]
  | ser init data => simp [Instr.isCommand]
  | parse init chunk => simp [Instr.isCommand]
  | answers a hi => simp
  | draws a b => simp
  | drops hi => simp
  | issues v hi =>
    have hwriter : ∃ v, i = .wrCtrl v ∨ i = .wr .ctrl v := ⟨v, hi⟩
    simp [hwriter]
  | writesStatus v hi => simp
  | writesIer v hi =>
    have hwriter : ∃ v, i = .wrIer v ∨ i = .wr .ier v := ⟨v, hi⟩
    simp [hwriter]
  | writesOperand r v hi =>
    have hwriter : ∃ v, i = .wrOperand r v ∨ i = .wr r.reg v := ⟨v, hi⟩
    cases r <;> rw [OperandReg.reg] at hwriter <;> simp [hwriter]
  | writesByte a w => simp

/-! ## STATUS, IER and the interrupt line (R23, R24, R39) -/

/-- Bits placed one above the other spell a sum. -/
theorem toNat_append_eq_add {m n : Nat} (x : BitVec m) (y : BitVec n) :
    (x ++ y).toNat = x.toNat * 2 ^ n + y.toNat := by
  rw [BitVec.toNat_append, ← Nat.shiftLeft_add_eq_or_of_lt y.isLt, Nat.shiftLeft_eq]

@[simp] theorem ErrCode.toNibble_toNat (c : ErrCode) : c.toNibble.toNat = c.number := by cases c <;> rfl

/-- STATUS as a number (R23). -/
theorem State.statusWord_toNat (s : State) :
    s.statusWord.toNat = s.busy.toNat + 2 * s.status.done.toNat + 4 * s.status.err.toNat + 8 * s.status.ovr.toNat +
      256 * s.status.errCode.number := by
  simp only [State.statusWord, toNat_append_eq_add, BitVec.toNat_ofBool, ErrCode.toNibble_toNat, BitVec.toNat_ofNat]
  omega

/-- IER as a number (R24). -/
theorem State.ierWord_toNat (s : State) :
    s.ierWord.toNat = s.ier.doneIe.toNat + 2 * s.ier.errIe.toNat + 4 * s.ier.ovrIe.toNat := by
  simp only [State.ierWord, toNat_append_eq_add, BitVec.toNat_ofBool, BitVec.toNat_ofNat]
  omega

/-- BUSY as a number: 1 exactly in phase BUSY (R21). -/
theorem State.ite_busy (s : State) : (if s.phase = .busy then 1 else 0) = s.busy.toNat := by
  unfold State.busy
  cases s.phase <;> rfl

/-- A bit of weight `n`. -/
theorem ite_eq_mul_toNat (b : Bool) (n : Nat) : (if b = true then n else 0) = n * b.toNat := by
  cases b <;> simp

/-- Settles O50: each bit the statement lists is a summand of the word's number. -/
theorem statusAndIerBits : Obligations.StatusAndIerBits := by
  intro s
  simp only [State.ite_busy, ite_eq_mul_toNat, Nat.one_mul]
  exact ⟨s.statusWord_toNat, s.ierWord_toNat⟩

theorem State.statusWord_getLsbD_done (s : State) : s.statusWord.getLsbD 1 = s.status.done := by
  simp only [State.statusWord, BitVec.getLsbD_append, BitVec.getLsbD_ofBool]
  simp

theorem State.statusWord_getLsbD_err (s : State) : s.statusWord.getLsbD 2 = s.status.err := by
  simp only [State.statusWord, BitVec.getLsbD_append, BitVec.getLsbD_ofBool]
  simp

theorem State.statusWord_getLsbD_ovr (s : State) : s.statusWord.getLsbD 3 = s.status.ovr := by
  simp only [State.statusWord, BitVec.getLsbD_append, BitVec.getLsbD_ofBool]
  simp

theorem State.ierWord_getLsbD_doneIe (s : State) : s.ierWord.getLsbD 0 = s.ier.doneIe := by
  simp only [State.ierWord, BitVec.getLsbD_append, BitVec.getLsbD_ofBool]
  simp

theorem State.ierWord_getLsbD_errIe (s : State) : s.ierWord.getLsbD 1 = s.ier.errIe := by
  simp only [State.ierWord, BitVec.getLsbD_append, BitVec.getLsbD_ofBool]
  simp

theorem State.ierWord_getLsbD_ovrIe (s : State) : s.ierWord.getLsbD 2 = s.ier.ovrIe := by
  simp only [State.ierWord, BitVec.getLsbD_append, BitVec.getLsbD_ofBool]
  simp

/-- Settles O60: the three places of the statement are the three terms of `irq`. -/
theorem irqIsEnabledPending : Obligations.IrqIsEnabledPending := by
  intro s
  simp only [State.irq, State.readReg, Nat.exists_lt_succ_right, Nat.not_lt_zero, false_and, exists_false, false_or,
    Nat.zero_add, Nat.reduceAdd, State.statusWord_getLsbD_done, State.statusWord_getLsbD_err,
    State.statusWord_getLsbD_ovr, State.ierWord_getLsbD_doneIe, State.ierWord_getLsbD_errIe,
    State.ierWord_getLsbD_ovrIe, Bool.or_eq_true, Bool.and_eq_true]

end Sys2Proof.Machine
end

section
/-! SUPPORT. The address map, the byte order of BUF, and what a command reads: the statements O5, O36, O45 and O47 of
20_memory.md. -/

namespace Sys2Proof

/-! ## The two apertures (R70) -/

variable {p : Params}

/-- Allowed parameters keep the apertures apart (R70). -/
theorem Params.wf_apart (h : p.wf = true) : p.regBase + 64 ≤ p.bufBase ∨ p.bufBase + p.bufSize ≤ p.regBase := by
  simp only [Params.wf, Bool.and_eq_true, Bool.or_eq_true, decide_eq_true_eq] at h
  exact h.2

theorem select_regBase_add {o : Nat} (ho : o < 64) : select p (p.regBase + o) = some (.reg, o) := by
  rw [select, if_pos (by omega), Nat.add_sub_cancel_left]

/-- An offset in BUF is not taken for a register, as the apertures do not meet. -/
theorem select_bufBase_add (h : p.wf = true) {a : Nat} (ha : a < p.bufSize) :
    select p (p.bufBase + a) = some (.buf, a) := by
  have hapart := Params.wf_apart h
  rw [select, if_neg (by omega), if_pos (by omega), Nat.add_sub_cancel_left]

theorem select_outside {addr : Nat} (hreg : addr < p.regBase ∨ p.regBase + 64 ≤ addr)
    (hbuf : addr < p.bufBase ∨ p.bufBase + p.bufSize ≤ addr) : select p addr = none := by
  rw [select, if_neg (by omega), if_neg (by omega)]

/-- A selected address decodes as the tuple of its aperture (the other way from `decodeRequest_eq_ok`). -/
theorem decodeRequest_of_select {r : Request} {space : Space} {o : Nat} (h : select p r.addr = some (space, o)) :
    decodeRequest p r = .ok (decode p (.transaction ⟨space, o, r.access⟩)) := by
  simp [decodeRequest, h]

theorem decodeRequest_of_select_none {r : Request} (h : select p r.addr = none) :
    decodeRequest p r = .error (.outsideApertures r.addr) := by
  simp [decodeRequest, h]

end Sys2Proof

namespace Sys2Proof.Machine

variable {s t : State} {i : Instr}

/-- A request that does not reach the block is used up, and nothing else happens (R70). -/
theorem step_of_decodeRequest_error {r : Request} {rest : List Event} {e : Reject} (hevents : s.events = .host r :: rest)
    (hdecode : decodeRequest s.params r = .error e) : step s = .next { s with events := rest } := by
  have hturn : s.turn = .pass { s with events := rest } := by simp [State.turn, hevents, hdecode]
  simp [step, hturn]

/-- Settles O5: `select` answers the aperture an address lies in, and an address of neither is a rejected request. -/
theorem addressSelectsAperture : Obligations.AddressSelectsAperture := by
  intro p hwf
  refine ⟨fun o acc ho => decodeRequest_of_select (select_regBase_add ho),
    fun a acc ha => decodeRequest_of_select (select_bufBase_add hwf ha), fun addr acc hreg hbuf => ?_⟩
  have hdecode : decodeRequest p ⟨addr, acc⟩ = .error (.outsideApertures addr) :=
    decodeRequest_of_select_none (select_outside hreg hbuf)
  refine ⟨hdecode, fun s rest hparams hevents => ?_⟩
  subst hparams
  exact step_of_decodeRequest_error hevents hdecode

/-! ## Big-endian fields (R72) -/

/-- A window of two parts holds each part at its place. -/
theorem Memory.holds_append {m : Memory} {a : Nat} {xs ys : List Byte} (h : m.holds a (xs ++ ys)) :
    m.holds a xs ∧ m.holds (a + xs.length) ys := by
  refine ⟨fun k hk => ?_, fun k hk => ?_⟩
  · rw [h k (by simp; omega), List.getElem_append_left hk]
  · rw [Nat.add_assoc, h (xs.length + k) (by simpa using hk)]
    simp

/-- The bytes of `be32` spell the number in BUF. -/
theorem Memory.beNat_of_holds_be32 {m : Memory} {a : Nat} {v : Word} (h : m.holds a (be32 v)) :
    m.beNat a = some v.toNat := by
  have h0 : m.read a = some (v.extractLsb' 24 8) := h 0 (by simp)
  have h1 : m.read (a + 1) = some (v.extractLsb' 16 8) := h 1 (by simp)
  have h2 : m.read (a + 2) = some (v.extractLsb' 8 8) := h 2 (by simp)
  have h3 : m.read (a + 3) = some (v.extractLsb' 0 8) := h 3 (by simp)
  have hv : v.toNat = (unbe32 (v.extractLsb' 24 8) (v.extractLsb' 16 8) (v.extractLsb' 8 8) (v.extractLsb' 0 8)).toNat :=
    congrArg BitVec.toNat (unbe32_be32 v).symm
  simp only [Memory.beNat, h0, h1, h2, h3]
  rw [hv]
  simp only [unbe32, toNat_append_eq_add, Option.some.injEq]
  omega

/-- Where a serialized frame lies in BUF, its length field and its CRC field are numbers there (R107). -/
theorem Memory.beNat_of_holds_serializeBytes {m : Memory} {a : Nat} {ty : TypeCode} {data : List Byte} {l : Word}
    (hlen : data.length = l.toNat) (h : m.holds a (serializeBytes ty data)) :
    m.beNat a = some l.toNat ∧ m.beNat (a + 8 + l.toNat) = some (chunkCrc ty data).toNat := by
  obtain ⟨hfront, hcrc⟩ := Memory.holds_append h
  obtain ⟨hheader, -⟩ := Memory.holds_append hfront
  obtain ⟨hlength, -⟩ := Memory.holds_append hheader
  rw [hlen, BitVec.ofNat_toNat, BitVec.setWidth_eq] at hlength
  have hplace : a + (be32 (BitVec.ofNat 32 data.length) ++ ty.bytes ++ data).length = a + 8 + l.toNat := by
    simp [hlen]; omega
  rw [hplace] at hcrc
  exact ⟨Memory.beNat_of_holds_be32 hlength, Memory.beNat_of_holds_be32 hcrc⟩

/-- What PARSE reads stands in BUF from SRC on (R184). -/
theorem Memory.readFrame_holds {m : Memory} {b n : Nat} {bytes : List Byte} (h : m.readFrame b n = .ok bytes) :
    m.holds b bytes := by
  rcases m.readFrame_cases b n with ⟨-, hf⟩ | ⟨-, ⟨x, -, hf⟩ | ⟨l, ty, hheader, ⟨-, hf⟩ | ⟨-, -, hf⟩⟩⟩ <;> rw [hf] at h
  · cases h; exact nofun
  · cases h
  · cases h; exact (Memory.readBytes_eq_ok.1 hheader).2
  · exact (Memory.readBytes_eq_ok.1 h).2

/-- An error of `parse_bytes` is never OK (R182). -/
theorem parseBytes_error_ne_ok {bytes : List Byte} {c : ErrCode} (h : parseBytes bytes = .error c) : c ≠ .ok := by
  rcases parseBytes_cases bytes with
    ⟨-, hp⟩ | ⟨l, ty, rest, -, ⟨-, hp⟩ | ⟨-, -, hp⟩ | ⟨-, data, crc, tail, -, -, ⟨-, hp⟩ | ⟨-, hp⟩⟩⟩ <;>
    rw [hp] at h <;> cases h <;> decide

/-- A SER that completes with OK has read its payload and written the frame (R183). -/
theorem exec_ser_ok {init : Bool} (h : exec (.ser init) s = .next t) (hok : t.status.errCode = .ok) :
    ∃ data, s.buf.readBytes s.src.toNat s.len.toNat = .ok data ∧
      t = (({ s with
        buf := s.buf.writeBytes s.dst.toNat (serializeBytes (unpack s.typeCode) data) } : State).setResults
          s.len s.typeCode (chunkCrc (unpack s.typeCode) data) s.dst.toNat).finish .ok := by
  have h : s.complete s.runSer = .next t := h
  rcases s.runSer_cases with
    ⟨-, he⟩ | ⟨-, -, he⟩ | ⟨-, -, ⟨-, he⟩ | ⟨-, ⟨-, he⟩ | ⟨-, ⟨x, -, he⟩ | ⟨data, hread, he⟩⟩⟩⟩ <;>
    rw [he] at h <;> cases h
  case inr.inr.inr.inr.inr => exact ⟨data, hread, rfl⟩
  all_goals cases hok

/-- A PARSE that completes with OK has read a frame and describes it (R184). -/
theorem exec_parse_ok {init : Bool} (h : exec (.parse init) s = .next t) (hok : t.status.errCode = .ok) :
    ∃ bytes chunk, s.buf.readFrame s.src.toNat s.len.toNat = .ok bytes ∧ parseBytes bytes = .ok chunk ∧
      t = (s.setResults chunk.len chunk.type.pack chunk.crc s.src.toNat).finish .ok := by
  have h : s.complete s.runParse = .next t := h
  rcases s.runParse_cases with ⟨-, he⟩ | ⟨-, ⟨x, -, he⟩ | ⟨bytes, hread, ⟨c, hparse, he⟩ | ⟨chunk, hparse, he⟩⟩⟩ <;>
    rw [he] at h <;> cases h
  · cases hok
  · exact absurd hok (parseBytes_error_ne_ok hparse)
  · exact ⟨bytes, chunk, hread, hparse, rfl⟩

/-- Settles O36: a SER leaves a serialized frame at DST, and the bytes a PARSE accepts start with one at SRC. -/
theorem fieldsAreBigEndian : Obligations.FieldsAreBigEndian := by
  refine fun init s t hok => ⟨fun h => ?_, fun h => ?_⟩
  · obtain ⟨data, hread, rfl⟩ := exec_ser_ok h hok
    simp only [State.finish_buf, State.setResults_buf, State.finish_resCrc, State.setResults_resCrc]
    exact Memory.beNat_of_holds_serializeBytes (Memory.readBytes_eq_ok.1 hread).1 (Memory.writeBytes_holds _ _ _)
  · obtain ⟨bytes, chunk, hread, hparse, rfl⟩ := exec_parse_ok h hok
    obtain ⟨-, hlen, hcrc, rest, rfl⟩ := parseBytes_eq_ok.1 hparse
    have hframe := (Memory.holds_append (Memory.readFrame_holds hread)).1
    have hfields := Memory.beNat_of_holds_serializeBytes hlen hframe
    rwa [← hcrc] at hfields

/-! ## The inputs of a pending command (R83) -/

/-- The pending command's word, its operands and BUF are the same in two states. -/
def State.SameInputs (s t : State) : Prop :=
  t.ctrl = s.ctrl ∧ t.src = s.src ∧ t.dst = s.dst ∧ t.len = s.len ∧ t.typeCode = s.typeCode ∧
    t.crcState = s.crcState ∧ t.buf = s.buf

/-- Whatever changes an input needs an idle engine or leaves it idle (R142, R218). -/
theorem Effect.sameInputs_of_busy (he : Effect s i t) (hs : s.phase = .busy) (ht : t.phase = .busy) :
    s.SameInputs t := by
  cases he with
  | raises | crc | ser | parse => cases ht
  | issues v hi hidle => cases hs.symm.trans hidle
  | writesOperand r v hi hidle => cases hs.symm.trans hidle
  | writesByte a w ha hidle => cases hs.symm.trans hidle
  | answers | draws | drops | writesStatus | writesIer => exact ⟨rfl, rfl, rfl, rfl, rfl, rfl, rfl⟩

/-- Settles O45: by the kinds of step; an instruction keeps the inputs by `Effect.sameInputs_of_busy`, a reset leaves the engine
idle, and any other step changes only what is still to come. -/
theorem inputsFixedWhileBusy : Obligations.InputsFixedWhileBusy := by
  intro s t hstep hs ht
  show s.SameInputs t
  rcases step_cases s with
    ⟨r, rest, i, -, -, he⟩ | ⟨r, rest, e, -, -, he⟩ | ⟨rest, -, -, he⟩ | ⟨rest, -, hidle, -⟩ | ⟨rest, -, he⟩
  · exact (Effect.of_exec (he.symm.trans hstep)).sameInputs_of_busy hs ht
  · cases he.symm.trans hstep; exact ⟨rfl, rfl, rfl, rfl, rfl, rfl, rfl⟩
  · exact (Effect.of_exec (he.symm.trans hstep)).sameInputs_of_busy hs ht
  · cases hs.symm.trans hidle
  · cases he.symm.trans hstep; cases ht

/-! ## What a command reads (R77) -/

/-- The state with another BUF. -/
def State.withBuf (m : Memory) (s : State) : State := { s with buf := m }

/-- Two memories have the same bytes in the window of `n` bytes at `a`. -/
def Memory.AgreeOn (m m' : Memory) (a n : Nat) : Prop := ∀ x, a ≤ x → x < a + n → m.read x = m'.read x

/-- The bytes `parse_bytes` looks at lie in its slice (R184). -/
theorem parseExtent_le {n : Nat} (header : List Byte) (h8 : 8 ≤ n) : parseExtent header n ≤ n := by
  unfold parseExtent
  split
  · dsimp only
    split
    · next hfits => exact hfits.2
    · exact h8
  · exact Nat.zero_le n

/-- PARSE's reads stay in its window (R184). -/
theorem Memory.readFrame_congr {m m' : Memory} {b n : Nat} (h : m.AgreeOn m' b n) :
    m.readFrame b n = m'.readFrame b n := by
  have hread : ∀ k, k ≤ n → m.readBytes b k = m'.readBytes b k := fun k hk =>
    Memory.readBytes_congr fun x h1 h2 => h x h1 (by omega)
  unfold Memory.readFrame
  split
  · rfl
  · next h8 =>
    rw [hread 8 (by omega)]
    cases m'.readBytes b 8 with
    | error x => rfl
    | ok header => exact hread _ (parseExtent_le header (by omega))

@[simp] theorem State.withBuf_src (m : Memory) (s : State) : (s.withBuf m).src = s.src := rfl
@[simp] theorem State.withBuf_dst (m : Memory) (s : State) : (s.withBuf m).dst = s.dst := rfl
@[simp] theorem State.withBuf_len (m : Memory) (s : State) : (s.withBuf m).len = s.len := rfl
@[simp] theorem State.withBuf_typeCode (m : Memory) (s : State) : (s.withBuf m).typeCode = s.typeCode := rfl
@[simp] theorem State.withBuf_buf (m : Memory) (s : State) : (s.withBuf m).buf = m := rfl
@[simp] theorem State.withBuf_inRange (m : Memory) (s : State) (a n : Nat) :
    (s.withBuf m).inRange a n = s.inRange a n := rfl

section
variable {m : Memory} (h : m.AgreeOn s.buf s.src.toNat s.len.toNat)
include h

/-- CRC reads its window only (R165): past the range check, which does not look at BUF, both computations see one list of
bytes. -/
theorem State.withBuf_runCrc (init : Bool) :
    ((s.withBuf m).runCrc init).mapEffects (State.withBuf []) = (s.runCrc init).mapEffects (State.withBuf []) := by
  have hread : m.readBytes s.src.toNat s.len.toNat = s.buf.readBytes s.src.toNat s.len.toNat := Memory.readBytes_congr h
  simp only [State.runCrc, State.withBuf_src, State.withBuf_len, State.withBuf_buf, State.withBuf_inRange, hread,
    apply_ite (CmdOutcome.mapEffects (State.withBuf []))]
  cases s.buf.readBytes s.src.toNat s.len.toNat <;> rfl

/-- SER reads its payload only (R183): its four checks do not look at BUF. -/
theorem State.withBuf_runSer :
    (s.withBuf m).runSer.mapEffects (State.withBuf []) = s.runSer.mapEffects (State.withBuf []) := by
  have hread : m.readBytes s.src.toNat s.len.toNat = s.buf.readBytes s.src.toNat s.len.toNat := Memory.readBytes_congr h
  simp only [State.runSer, State.withBuf_src, State.withBuf_dst, State.withBuf_len, State.withBuf_typeCode,
    State.withBuf_buf, State.withBuf_inRange, hread, apply_ite (CmdOutcome.mapEffects (State.withBuf []))]
  cases s.buf.readBytes s.src.toNat s.len.toNat <;> rfl

/-- PARSE reads no byte outside its window (R184), and `parse_bytes` sees only what was read. -/
theorem State.withBuf_runParse :
    (s.withBuf m).runParse.mapEffects (State.withBuf []) = s.runParse.mapEffects (State.withBuf []) := by
  have hread : m.readFrame s.src.toNat s.len.toNat = s.buf.readFrame s.src.toNat s.len.toNat := Memory.readFrame_congr h
  simp only [State.runParse, State.withBuf_src, State.withBuf_len, State.withBuf_buf, State.withBuf_inRange, hread,
    apply_ite (CmdOutcome.mapEffects (State.withBuf []))]
  cases s.buf.readFrame s.src.toNat s.len.toNat with
  | error x => rfl
  | ok bytes => dsimp only; cases parseBytes bytes <;> rfl

end

/-- Two computations that differ in BUF only complete alike but for BUF (R142). -/
theorem State.withBuf_complete (m : Memory) {r r' : CmdOutcome}
    (h : r.mapEffects (State.withBuf []) = r'.mapEffects (State.withBuf [])) :
    mapNext (State.withBuf []) ((s.withBuf m).complete r) = mapNext (State.withBuf []) (s.complete r') := by
  have hcomplete := complete_mapEffects (f := State.withBuf []) (fun _ _ => rfl)
  calc mapNext (State.withBuf []) ((s.withBuf m).complete r)
      = (s.withBuf []).complete (r.mapEffects (State.withBuf [])) := (hcomplete (s.withBuf m) r).symm
    _ = (s.withBuf []).complete (r'.mapEffects (State.withBuf [])) := by rw [h]
    _ = mapNext (State.withBuf []) (s.complete r') := hcomplete s r'

/-- Settles O47: each command computes the same from the bytes of its window, and a completion adds nothing that depends on
BUF. -/
theorem commandsReadOnlyTheirWindow : Obligations.CommandsReadOnlyTheirWindow := by
  intro i s m hi hagree
  cases i with
  | crc init => exact State.withBuf_complete m (State.withBuf_runCrc hagree init)
  | ser init => exact State.withBuf_complete m (State.withBuf_runSer hagree)
  | parse init => exact State.withBuf_complete m (State.withBuf_runParse hagree)
  | illegal word => rfl
  | rd | wr | wrCtrl | wrStatus | wrIer | wrOperand | rb | wb | busError => cases hi

end Sys2Proof.Machine
end

section
/-! SUPPORT. The decoder and the encoder against each other, the host's lines on the bus, and the bytes of a frame: the statements
O1, O2, O3, O4, O6, O26, O37 and O42 of 30_encoding.md. -/

-- One proof after the other: with one thread for each, the threads' stacks and the proofs exceed the memory limit of the check.
set_option Elab.async false

namespace Sys2Proof

/-! ## CTRL words (R100, R101, R103) -/

/-- A command word bit by bit (R100). -/
theorem commandWord_getLsbD (init : Bool) (op : BitVec 4) (j : Nat) :
    (commandWord init op).getLsbD j = if j < 4 then op.getLsbD j else decide (j = 4) && init := by
  simp only [commandWord, BitVec.getLsbD_append, BitVec.getLsbD_ofBool]
  by_cases hop : j < 4
  · simp [hop]
  by_cases hinit : j = 4
  · simp [hinit]
  · simp [hop, hinit, show ¬ j - 4 < 1 by omega]

@[simp] theorem commandWord_rsvd (init : Bool) (op : BitVec 4) : (commandWord init op).extractLsb' 5 27 = 0 := by
  apply BitVec.eq_of_getLsbD_eq
  intro j hj
  simp [commandWord_getLsbD, show ¬ 5 + j < 4 by omega, show 5 + j ≠ 4 by omega]

@[simp] theorem commandWord_init (init : Bool) (op : BitVec 4) : (commandWord init op)[4] = init := by
  simp [← BitVec.getLsbD_eq_getElem, commandWord_getLsbD]

@[simp] theorem commandWord_op (init : Bool) (op : BitVec 4) : (commandWord init op).extractLsb' 0 4 = op := by
  apply BitVec.eq_of_getLsbD_eq
  intro j hj
  simp [commandWord_getLsbD, hj]

/-- A word with its upper 27 bits zero is made of its INIT and OP fields (R100). -/
theorem eq_commandWord {v : Word} (h : v.extractLsb' 5 27 = 0) : v = commandWord (v.getLsbD 4) (v.extractLsb' 0 4) := by
  have hrsvd : ∀ k, k < 27 → v.getLsbD (5 + k) = false := fun k hk => by
    simpa [hk] using congrArg (BitVec.getLsbD · k) h
  apply BitVec.eq_of_getLsbD_eq
  intro j hj
  rw [commandWord_getLsbD]
  rcases Nat.lt_trichotomy j 4 with hop | rfl | hhigh
  · simp [hop]
  · simp
  · have hbit : v.getLsbD j = false := by rw [show j = 5 + (j - 5) by omega]; exact hrsvd _ (by omega)
    simp [hbit, show ¬ j < 4 by omega, show j ≠ 4 by omega]

/-- The six listed words are those the fields make legal (R103). -/
theorem mem_legalWords_iff {v : Word} :
    v ∈ legalWords ↔
      v.extractLsb' 5 27 = 0 ∧ (v.extractLsb' 0 4 = 1 ∨ v.extractLsb' 0 4 = 2 ∨ v.extractLsb' 0 4 = 3) := by
  constructor
  · intro h
    simp only [legalWords, List.mem_cons, List.not_mem_nil, or_false] at h
    rcases h with rfl | rfl | rfl | rfl | rfl | rfl <;> decide
  · have hlisted : ∀ init, commandWord init 1 ∈ legalWords ∧ commandWord init 2 ∈ legalWords ∧
        commandWord init 3 ∈ legalWords := by decide
    rintro ⟨hrsvd, hop⟩
    obtain ⟨hcrc, hser, hparse⟩ := hlisted (v.getLsbD 4)
    rw [eq_commandWord hrsvd]
    rcases hop with hop | hop | hop <;> rw [hop] <;> assumption

/-- The legality of R103 on numbers is the one on bit fields. -/
theorem legal_toNat_iff {v : Word} :
    (v.toNat / 2 ^ 5 = 0 ∧ (v.toNat % 2 ^ 4 = 1 ∨ v.toNat % 2 ^ 4 = 2 ∨ v.toNat % 2 ^ 4 = 3)) ↔ v ∈ legalWords := by
  have hrsvd : (v.extractLsb' 5 27).toNat = v.toNat / 2 ^ 5 := by
    rw [BitVec.extractLsb'_toNat, Nat.shiftRight_eq_div_pow]
    exact Nat.mod_eq_of_lt (by omega)
  have hop : (v.extractLsb' 0 4).toNat = v.toNat % 2 ^ 4 := by rw [BitVec.extractLsb'_toNat, Nat.shiftRight_zero]
  simp only [mem_legalWords_iff, ← BitVec.toNat_inj, hrsvd, hop]
  rfl

theorem decodeCtrl_of_not_mem_legalWords {v : Word} (h : v ∉ legalWords) : decodeCtrl v = .illegal v := by
  rw [mem_legalWords_iff] at h
  rcases decodeCtrl_cases v with ⟨hrsvd, ⟨hop, -⟩ | ⟨hop, -⟩ | ⟨hop, -⟩⟩ | ⟨-, hd⟩
  · exact absurd ⟨hrsvd, .inl hop⟩ h
  · exact absurd ⟨hrsvd, .inr (.inl hop)⟩ h
  · exact absurd ⟨hrsvd, .inr (.inr hop)⟩ h
  · exact hd

/-- Every CTRL word decodes to a well-formed command whose word it is. -/
theorem decodeCtrl_wf_and_encode (p : Params) (v : Word) :
    (decodeCtrl v).wf p = true ∧ encode (decodeCtrl v) = .command v := by
  rcases decodeCtrl_cases v with ⟨hrsvd, ⟨hop, hd⟩ | ⟨hop, hd⟩ | ⟨hop, hd⟩⟩ | ⟨hfields, hd⟩ <;> rw [hd]
  case inr =>
    have hv : v ∉ legalWords := by rw [mem_legalWords_iff]; tauto
    exact ⟨decide_eq_true hv, rfl⟩
  all_goals
    have hv := eq_commandWord hrsvd
    rw [hop] at hv
    exact ⟨rfl, congrArg Encoded.command hv.symm⟩

/-! ## Tuples (R105, R106) -/

variable {p : Params}

/-- An access of four bytes at a register's offset is legal (R106). -/
theorem Transaction.legal_reg {r : Reg} {acc : Access} (hsize : acc.size = .four) :
    (⟨.reg, r.offset, acc⟩ : Transaction).legal p = true := by
  have hoffset : r.offset % 4 = 0 ∧ r.offset < 64 := (Reg.ofOffset_isSome r.offset).1 (by simp)
  simp [Transaction.legal, hsize, hoffset]

/-- An access of one byte of BUF is legal (R106). -/
theorem Transaction.legal_buf {a : Nat} {acc : Access} (hsize : acc.size = .one) (ha : a < p.bufSize) :
    (⟨.buf, a, acc⟩ : Transaction).legal p = true := by
  simp [Transaction.legal, hsize, ha]

theorem decodeTransaction_of_not_legal {t : Transaction} (h : t.legal p = false) :
    decodeTransaction p t = .busError t := by
  obtain ⟨space, o, acc⟩ := t
  rcases decodeTransaction_cases p ⟨space, o, acc⟩ with
    ⟨r, rfl, rfl, hacc⟩ | ⟨rfl, ha, hacc⟩ | ⟨-, hd⟩
  · rcases hacc with ⟨rfl, -⟩ | ⟨v, rfl, -⟩ <;> rw [Transaction.legal_reg rfl] at h <;> cases h
  · rcases hacc with ⟨rfl, -⟩ | ⟨w, rfl, -⟩ <;> rw [Transaction.legal_buf rfl ha] at h <;> cases h
  · exact hd

/-- A register write decodes by the dispatch of R211. -/
@[simp] theorem decode_regWrite (p : Params) (r : Reg) (v : Word) : decode p (regWrite r v) = decodeRegWrite r v := by
  simp [regWrite, decode, decodeTransaction]

/-- Each row a register write decodes to is well-formed and encodes as that write (log entry 11). -/
theorem decodeRegWrite_wf_and_encode (p : Params) (r : Reg) (v : Word) :
    (decodeRegWrite r v).wf p = true ∧ encode (decodeRegWrite r v) = regWrite r v := by
  cases r <;> exact ⟨rfl, rfl⟩

/-- The plain row is decoded for the read-only registers (log entry 11). -/
theorem decodeRegWrite_of_readOnly {r : Reg} (h : r.readOnly = true) (v : Word) : decodeRegWrite r v = .wr r v := by
  cases r with
  | ctrl | status | ier | src | dst | len | typeCode | crcState => cases h
  | crcResult | flags | resLen | resType | resCrc | resData | resSize | cfg => rfl

@[simp] theorem decodeRegWrite_operand (r : OperandReg) (v : Word) : decodeRegWrite r.reg v = .wrOperand r v := by
  cases r <;> rfl

/-- Every tuple decodes to a well-formed transaction whose tuple it is. -/
theorem decodeTransaction_wf_and_encode (p : Params) (t : Transaction) :
    (decodeTransaction p t).wf p = true ∧ encode (decodeTransaction p t) = .transaction t := by
  obtain ⟨space, o, acc⟩ := t
  rcases decodeTransaction_cases p ⟨space, o, acc⟩ with
    ⟨r, rfl, rfl, ⟨rfl, hd⟩ | ⟨v, rfl, hd⟩⟩ | ⟨rfl, ha, ⟨rfl, hd⟩ | ⟨w, rfl, hd⟩⟩ | ⟨hlegal, hd⟩ <;> rw [hd]
  · exact ⟨rfl, rfl⟩
  · exact decodeRegWrite_wf_and_encode p r v
  · exact ⟨decide_eq_true ha, rfl⟩
  · exact ⟨decide_eq_true ha, rfl⟩
  · exact ⟨by simp [Instr.wf, hlegal], rfl⟩

/-! ## The round trips -/

/-- Settles O3: row by row; a command word has the fields it was made of, a tuple of a register or of a byte is the one its row
names, and an illegal word or a bus error is what no other row decodes. -/
theorem decodeOfEncode : Obligations.DecodeOfEncode := by
  intro p i hwf
  cases i with
  | crc init | ser init | parse init => simp [encode, decode, decodeCtrl]
  | illegal w => exact decodeCtrl_of_not_mem_legalWords (of_decide_eq_true hwf)
  | rd r => simp [encode, decode, decodeTransaction]
  | wr r v => exact (decode_regWrite p r v).trans (decodeRegWrite_of_readOnly hwf v)
  | wrCtrl v => exact decode_regWrite p .ctrl v
  | wrStatus v => exact decode_regWrite p .status v
  | wrIer v => exact decode_regWrite p .ier v
  | wrOperand r v => exact (decode_regWrite p r.reg v).trans (decodeRegWrite_operand r v)
  | rb a => exact if_pos (of_decide_eq_true hwf)
  | wb a w => exact if_pos (of_decide_eq_true hwf)
  | busError t => exact decodeTransaction_of_not_legal (by simpa [Instr.wf] using hwf)

/-- Settles O4: format by format. -/
theorem encodeOfDecode : Obligations.EncodeOfDecode := by
  intro p e
  cases e with
  | command v => exact decodeCtrl_wf_and_encode p v
  | transaction t => exact decodeTransaction_wf_and_encode p t

/-- Settles O2: the words are evaluated; a byte access is the encoding of its row, well-formed as it lies in BUF. -/
theorem writtenWordsDecode : Obligations.WrittenWordsDecode := by
  refine ⟨by decide, by decide, by decide, by decide, fun p =>
    ⟨rfl, rfl, rfl, rfl, rfl, rfl, rfl, rfl, fun hsize => ⟨?_, ?_⟩⟩⟩
  · exact decodeOfEncode p (.rb 3) (by simp [Instr.wf, hsize])
  · exact decodeOfEncode p (.wb 255 0x31) (by simp [Instr.wf, hsize])

end Sys2Proof

namespace Sys2Proof.Machine

variable {p : Params} {s t : State} {i : Instr}

/-- An illegal command fails in every state (R144). -/
theorem exec_illegal (v : Word) (s : State) : exec (.illegal v) s = .next (s.failedWith .illegalCmd) :=
  congrArg Host.Outcome.next (s.finish_error (by decide))

/-- Settles O1: legality on numbers is legality on fields, which the six words have, and any other word is illegal. -/
theorem legalWordsAreExactlySix : Obligations.LegalWordsAreExactlySix := by
  refine ⟨fun v => legal_toNat_iff, by decide, fun v s hv => ?_⟩
  have hd : decodeCtrl v = .illegal v := decodeCtrl_of_not_mem_legalWords hv
  exact ⟨hd, hd ▸ exec_illegal v s⟩

/-! ## Host lines (R113) -/

/-- The bus request of a legal tuple reaches the block as the row the tuple decodes to (R70, R106). -/
theorem decodeRequest_request (hwf : p.wf = true) {t : Transaction} (ht : t.legal p = true)
    (hi : decode p (.transaction t) = i) : decodeRequest p (t.request p) = .ok i := by
  subst hi
  obtain ⟨space, o, acc⟩ := t
  cases space <;> simp only [Transaction.legal, Bool.and_eq_true, decide_eq_true_eq] at ht
  case reg => exact decodeRequest_of_select (select_regBase_add ht.2)
  case buf => exact decodeRequest_of_select (select_bufBase_add hwf ht.2)

/-- A register write does what the dispatch of R211 does, whichever row it decodes to (log entry 11). -/
theorem exec_decodeRegWrite (r : Reg) (v : Word) (s : State) : exec (decodeRegWrite r v) s = exec (.wr r v) s := by
  cases r <;> rfl

/-- Settles O6: a line's tuple is legal, so its request decodes as the tuple does. -/
theorem hostLinesReachTheirInstructions : Obligations.HostLinesReachTheirInstructions := by
  refine fun p hwf => ⟨fun r => ?_, fun r v => ⟨decodeRegWrite r v, ?_, exec_decodeRegWrite r v⟩, fun a ha => ?_,
    fun a w ha => ?_⟩
  · exact decodeRequest_request hwf (Transaction.legal_reg rfl) (decodeOfEncode p (.rd r) rfl)
  · exact decodeRequest_request hwf (Transaction.legal_reg rfl) (decode_regWrite p r v)
  · exact decodeRequest_request hwf (Transaction.legal_buf rfl ha) (decodeOfEncode p (.rb a) (decide_eq_true ha))
  · exact decodeRequest_request hwf (Transaction.legal_buf rfl ha) (decodeOfEncode p (.wb a w) (decide_eq_true ha))

/-! ## The layout of a frame (R107, R181) -/

/-- Reading the bytes of `be32` as base-256 digits gives the number back (R72). -/
theorem foldl_be32 (v : Word) : (be32 v).foldl (fun n b => n * 256 + b.toNat) 0 = v.toNat := by
  have hv : v.toNat = (unbe32 (v.extractLsb' 24 8) (v.extractLsb' 16 8) (v.extractLsb' 8 8) (v.extractLsb' 0 8)).toNat :=
    congrArg BitVec.toNat (unbe32_be32 v).symm
  rw [hv]
  simp only [be32, unbe32, toNat_append_eq_add, List.foldl_cons, List.foldl_nil]
  omega

/-- Settles O26: the frame is the length field, the type, the payload and the CRC field, cut where each ends. -/
theorem serializedFrameLayout : Obligations.SerializedFrameLayout := by
  intro type data hlen
  have hlength : (serializeBytes type data).take 4 = be32 (BitVec.ofNat 32 data.length) := by
    simp [serializeBytes, be32]
  have hcrc : (serializeBytes type data).drop (8 + data.length) = be32 (chunkCrc type data) :=
    List.drop_left' (by simp; omega)
  refine ⟨serializeBytes_length type data, ?_, ?_, ?_, ?_⟩
  · rw [hlength, foldl_be32]
    exact Nat.mod_eq_of_lt hlen
  · simp [serializeBytes, be32, TypeCode.bytes]
  · simp [serializeBytes, be32, TypeCode.bytes]
  · rw [hcrc, foldl_be32]

/-! ## What the CRC of a frame covers (R109) -/

/-- The bytes of a window are the window's. -/
theorem Memory.holds_unique {m : Memory} {a : Nat} {xs ys : List Byte} (hx : m.holds a xs) (hy : m.holds a ys)
    (hlen : xs.length = ys.length) : xs = ys := by
  have hreadx : m.readBytes a ys.length = .ok xs := Memory.readBytes_eq_ok.2 ⟨hlen, hx⟩
  have hready : m.readBytes a ys.length = .ok ys := Memory.readBytes_eq_ok.2 ⟨rfl, hy⟩
  exact Except.ok.inj (hreadx.symm.trans hready)

/-- After the length field of a serialized frame stand its type and its payload. -/
theorem Memory.holds_type_data {m : Memory} {a : Nat} {ty : TypeCode} {data : List Byte}
    (h : m.holds a (serializeBytes ty data)) : m.holds (a + 4) (ty.bytes ++ data) := by
  have hfront := (Memory.holds_append h).1
  rw [List.append_assoc] at hfront
  exact (Memory.holds_append hfront).2

/-- The CRC field of a frame in BUF is the CRC of the bytes between it and the length field. -/
theorem Memory.crc32_of_holds_serializeBytes {m : Memory} {a : Nat} {ty : TypeCode} {data bytes : List Byte}
    (h : m.holds a (serializeBytes ty data)) (hbytes : m.holds (a + 4) bytes) (hlen : bytes.length = 4 + data.length) :
    chunkCrc ty data = crc32 bytes := by
  rw [Memory.holds_unique hbytes (Memory.holds_type_data h) (by simpa using hlen)]
  rfl

/-- Settles O37: a SER leaves a serialized frame at DST, and a PARSE has accepted one at SRC. -/
theorem crcCoversTypeAndData : Obligations.CrcCoversTypeAndData := by
  refine fun init s t bytes hok => ⟨fun h hlen hbytes => ?_, fun h hlen hbytes => ?_⟩
  · obtain ⟨data, hread, rfl⟩ := exec_ser_ok h hok
    have hdata : data.length = s.len.toNat := (Memory.readBytes_eq_ok.1 hread).1
    exact Memory.crc32_of_holds_serializeBytes (Memory.writeBytes_holds _ _ _) hbytes (by rw [hdata]; exact hlen)
  · obtain ⟨frame, chunk, hread, hparse, rfl⟩ := exec_parse_ok h hok
    obtain ⟨-, hdata, hcrc, rest, rfl⟩ := parseBytes_eq_ok.1 hparse
    have hframe := (Memory.holds_append (Memory.readFrame_holds hread)).1
    exact hcrc.trans (Memory.crc32_of_holds_serializeBytes hframe hbytes (by rw [hdata]; exact hlen))

/-! ## The frame of every command (R43, R142, R143) -/

/-- A SER writes no byte outside its frame window (R183). -/
theorem read_ser_outside {data : List Byte} (hread : s.buf.readBytes s.src.toNat s.len.toNat = .ok data) {a : Nat}
    (ha : a < s.dst.toNat ∨ s.dst.toNat + 12 + s.len.toNat ≤ a) :
    (s.buf.writeBytes s.dst.toNat (serializeBytes (unpack s.typeCode) data)).read a = s.buf.read a := by
  have hdata : data.length = s.len.toNat := (Memory.readBytes_eq_ok.1 hread).1
  exact Memory.read_writeBytes_outside _ _ (by rw [serializeBytes_length]; omega)

/-- Settles O42: a command ends with a code only, or with the effects of its own row; no other way to end is a command's. -/
theorem commandFrame : Obligations.CommandFrame := by
  intro i s t hi ht
  cases Effect.of_exec ht with
  | raises c =>
    exact ⟨rfl, rfl, rfl, rfl, rfl, rfl, rfl, rfl, rfl, rfl, rfl, fun _ => rfl, fun _ => ⟨rfl, rfl, rfl, rfl, rfl⟩,
      fun _ => rfl, fun _ _ => rfl⟩
  | crc init v =>
    exact ⟨rfl, rfl, rfl, rfl, rfl, rfl, rfl, rfl, rfl, rfl, rfl, fun hrow => absurd rfl (hrow init),
      fun _ => ⟨rfl, rfl, rfl, rfl, rfl⟩, fun _ => rfl, fun _ _ => rfl⟩
  | ser init data halpha hfit hread =>
    exact ⟨rfl, rfl, rfl, rfl, rfl, rfl, rfl, rfl, rfl, rfl, rfl, fun _ => rfl, fun hrow => absurd rfl (hrow init).1,
      fun hrow => absurd rfl (hrow init), fun _ => read_ser_outside hread⟩
  | parse init chunk =>
    exact ⟨rfl, rfl, rfl, rfl, rfl, rfl, rfl, rfl, rfl, rfl, rfl, fun _ => rfl, fun hrow => absurd rfl (hrow init).2,
      fun _ => rfl, fun _ _ => rfl⟩
  | answers a hhost | drops hhost => rw [hhost] at hi; cases hi
  | issues v hrow | writesStatus v hrow | writesIer v hrow | writesOperand r v hrow =>
    rcases hrow with rfl | rfl <;> cases hi
  | draws | writesByte => cases hi

end Sys2Proof.Machine
end

section
/-! SUPPORT. How a command ends, what moves the engine phase, and the turns of a step: the statements O8, O9, O39, O40, O41, O44,
O46 and O52 of 40_command_engine.md. -/

-- As in the section before: the proofs one after the other, to stay under the memory limit of the check.
set_option Elab.async false

namespace Sys2Proof.Machine

variable {s t : State} {i : Instr} {rest : List Event}

theorem Phase.idle_ne_busy : Phase.idle ≠ .busy := nofun

/-! ## How a command ends (R142, R143) -/

/-- A command ends in a completion with the code that ERRCODE shows, and a failure is the completion of the state itself. -/
theorem Effect.command_completes (he : Effect s i t) (hi : i.isCommand = true) :
    t.phase = .idle ∧ t.status = s.status.completed t.status.errCode ∧
      (t.status.errCode ≠ .ok → t = s.finish t.status.errCode) := by
  induction he with
  | raises c => exact ⟨rfl, rfl, fun _ => rfl⟩
  | crc | ser | parse => exact ⟨rfl, rfl, fun hfail => absurd rfl hfail⟩
  | answers a hhost | drops hhost => exact absurd (hhost.symm.trans hi) Bool.false_ne_true
  | issues v hrow | writesStatus v hrow | writesIer v hrow | writesOperand r v hrow =>
    exact absurd hi (by rcases hrow with rfl | rfl <;> exact Bool.false_ne_true)
  | draws | writesByte => exact absurd hi Bool.false_ne_true

/-- A completed command leaves the engine IDLE and DONE set (R142). -/
theorem Effect.command_idle_done (he : Effect s i t) (hi : i.isCommand = true) :
    t.phase = .idle ∧ t.status.done = true := by
  obtain ⟨hphase, hstatus, -⟩ := he.command_completes hi
  exact ⟨hphase, congrArg Status.done hstatus⟩

/-- Settles O40: on a failure the completion is of the state itself. -/
theorem failureChangesOnlyStatus : Obligations.FailureChangesOnlyStatus := by
  intro i s t hi ht hfail
  obtain ⟨-, hstatus, hkeep⟩ := (Effect.of_exec ht).command_completes hi
  exact (hkeep hfail).trans (by rw [State.finish, ← hstatus])

/-- Settles O41: the completion's STATUS is a function of the code and of the STATUS before, and 0x6 has bits 1 and 2. -/
theorem completionStatusAndClearing : Obligations.CompletionStatusAndClearing := by
  refine ⟨fun i s t hi ht => ?_, fun s => ⟨s.writeStatus 0x6, rfl, ?_⟩⟩
  · obtain ⟨hphase, hstatus, -⟩ := (Effect.of_exec ht).command_completes hi
    have herr : t.status.err = (s.status.err || decide (t.status.errCode ≠ .ok)) := congrArg Status.err hstatus
    refine ⟨hphase, (congrArg Status.done hstatus :), (congrArg Status.ovr hstatus :), ?_⟩
    rw [herr, Bool.or_eq_true, decide_eq_true_eq]
  · simp [State.irq]

/-! ## Issue, drop, and the illegal words (R141, R144) -/

/-- A word that R103 does not make legal, as R144 counts them. -/
theorem decodeCtrl_of_illegal_toNat {v : Word} (h : v.toNat % 16 = 0 ∨ 4 ≤ v.toNat % 16 ∨ v.toNat / 32 ≠ 0) :
    decodeCtrl v = .illegal v :=
  decodeCtrl_of_not_mem_legalWords fun hlegal => by
    have hfields := legal_toNat_iff.2 hlegal
    omega

/-- A CTRL write while idle is an issue (R141). -/
theorem exec_wrCtrl_of_idle (v : Word) (h : s.phase = .idle) :
    exec (.wrCtrl v) s = .next ((s.issue v).answering .okay) := by
  rcases s.writeCtrl_cases v with ⟨hbusy, -⟩ | ⟨-, he⟩
  · exact absurd (h.symm.trans hbusy) Phase.idle_ne_busy
  · exact congrArg Host.Outcome.next he

/-- A CTRL write while busy is dropped (R141, R218). -/
theorem exec_wrCtrl_of_busy (v : Word) (h : s.phase = .busy) : exec (.wrCtrl v) s = .next s.dropWrite := by
  rcases s.writeCtrl_cases v with ⟨-, he⟩ | ⟨hidle, -⟩
  · exact congrArg Host.Outcome.next he
  · exact absurd (hidle.symm.trans h) Phase.idle_ne_busy

/-- Settles O52: issue and drop, written out. -/
theorem ctrlWriteIssues : Obligations.CtrlWriteIssues :=
  fun v _ => ⟨exec_wrCtrl_of_idle v, exec_wrCtrl_of_busy v⟩

/-- Settles O39: the word is issued like any other, and its completion is a failure of the issued state. -/
theorem illegalWordCompletes : Obligations.IllegalWordCompletes := by
  refine ⟨exec_illegal, fun s v hv hidle => ⟨decodeCtrl_of_illegal_toNat hv, ?_⟩, ⟨_, _, rfl, rfl, by decide⟩⟩
  exact ⟨_, exec_wrCtrl_of_idle v hidle, rfl, rfl, (exec_illegal v _).trans (by rw [State.failedWith, ← hidle]; rfl)⟩

/-! ## The engine's turn (R142, log entries 2 and 3) -/

/-- The engine is next: its turn is the first input, or no input is left. `rest` is what is still to come after it. -/
def State.engineNext (s : State) (rest : List Event) : Prop :=
  s.events = .engine :: rest ∨ (s.events = [] ∧ rest = [])

theorem State.turn_of_engineNext (h : s.engineNext rest) : s.turn = State.engineTurn { s with events := rest } := by
  rcases h with hevents | ⟨hevents, rfl⟩
  · simp [State.turn, hevents]
  · have hs : ({ s with events := [] } : State) = s := by rw [← hevents]
    simp [State.turn, hevents, hs]

theorem State.engineTurn_of_busy (h : s.phase = .busy) : s.engineTurn = .run (decodeCtrl s.ctrl) s :=
  if_pos (s.busy_eq_true.2 h)

theorem State.engineTurn_of_idle (h : s.phase = .idle) : s.engineTurn = .pass s :=
  if_neg (by simp [h])

theorem step_of_turn_run {u : State} (h : s.turn = .run i u) : step s = exec i u := by rw [step, h]

theorem step_of_turn_pass {u : State} (h : s.turn = .pass u) : step s = .next u := by rw [step, h]

theorem step_of_engineNext_busy (h : s.engineNext rest) (hbusy : s.phase = .busy) :
    step s = exec (decodeCtrl s.ctrl) { s with events := rest } :=
  step_of_turn_run ((State.turn_of_engineNext h).trans (State.engineTurn_of_busy hbusy))

theorem step_of_engineNext_idle (h : s.engineNext rest) (hidle : s.phase = .idle) :
    step s = .next { s with events := rest } :=
  step_of_turn_pass ((State.turn_of_engineNext h).trans (State.engineTurn_of_idle hidle))

/-- The engine's turn leaves it IDLE. -/
theorem phase_of_step_of_engineNext (h : s.engineNext rest) (ht : step s = .next t) : t.phase = .idle := by
  cases hphase : s.phase with
  | idle => cases (step_of_engineNext_idle h hphase).symm.trans ht; exact hphase
  | busy =>
    have he := Effect.of_exec ((step_of_engineNext_busy h hphase).symm.trans ht)
    exact (he.command_idle_done (decodeCtrl_isCommand _)).1

theorem step_of_reset (h : s.events = .reset :: rest) :
    step s = .next (State.hardReset { s with events := rest }) :=
  step_of_turn_pass (by simp [State.turn, h])

/-- A run that is over has only idle turns and resets left, and stays over under both (R315). -/
theorem State.ended.step_eq_next (h : s.ended) :
    ∃ t, step s = .next t ∧ t.ended ∧ ((∀ e ∈ s.events, e ≠ .reset) → t.endState = s.endState) := by
  obtain ⟨hnohost, hidle⟩ := h
  cases hevents : s.events with
  | nil =>
    exact ⟨_, step_of_engineNext_idle (.inr ⟨hevents, rfl⟩) hidle, ⟨rfl, hidle⟩, fun _ => s.endState_events _⟩
  | cons e rest =>
    rw [hevents, List.any_cons, Bool.or_eq_false_iff] at hnohost
    obtain ⟨hhead, hrest⟩ := hnohost
    cases e with
    | host r => cases hhead
    | engine =>
      exact ⟨_, step_of_engineNext_idle (.inl hevents) hidle, ⟨hrest, hidle⟩, fun _ => s.endState_events _⟩
    | reset => exact ⟨_, step_of_reset hevents, ⟨hrest, rfl⟩, fun hnoreset => absurd rfl (hnoreset .reset List.mem_cons_self)⟩

/-- With no input left the completion of a pending command ends the run (R315). -/
theorem endsIn_one_of_completion (hevents : s.events = []) (hbusy : s.phase = .busy) (ht : step s = .next t) :
    s.endsIn 1 t := by
  have hnext : s.engineNext [] := .inr ⟨hevents, rfl⟩
  have hleft : t.events = [] :=
    (Effect.of_exec ((step_of_engineNext_busy hnext hbusy).symm.trans ht)).params_events.2
  refine ⟨run_succ_of_next 0 ht, ⟨by rw [hleft]; rfl, phase_of_step_of_engineNext hnext ht⟩, fun j u hj hrun => ?_⟩
  obtain rfl : j = 0 := Nat.lt_one_iff.1 hj
  cases hrun
  exact State.not_ended_of_busy hbusy

/-- Settles O8: the engine is next at its turn and when no input is left, where `events` stays as it is. -/
theorem engineTurnRunsPendingWord : Obligations.EngineTurnRunsPendingWord := by
  refine fun s => ⟨fun rest hevents => step_of_engineNext_busy (.inl hevents),
    fun rest hevents => step_of_engineNext_idle (.inl hevents), fun hevents hbusy => ?_,
    fun hevents hbusy t => endsIn_one_of_completion hevents hbusy, fun hevents hidle => ?_, State.ended.step_eq_next⟩
  · exact step_of_engineNext_busy (.inr ⟨hevents, hevents⟩) hbusy
  · exact step_of_engineNext_idle (.inr ⟨hevents, hevents⟩) hidle

/-- Settles O9: a placed word is pending and the engine is next. -/
theorem placedWordRunsNext : Obligations.PlacedWordRunsNext := by
  intro s nbits w i hdecode
  have hi : decodeCtrl (BitVec.ofNat 32 (w % 2 ^ nbits)) = i := by
    unfold decodeTableWord at hdecode
    split at hdecode
    · exact Option.some.inj hdecode
    · cases hdecode
  subst hi
  exact step_of_engineNext_busy (s := s.withFetchWord nbits w) (.inl rfl) rfl

/-! ## The phase (R140) -/

/-- A row's format is the one its encoding has. -/
theorem encode_isCommand (i : Instr) : (encode i).isCommand = i.isCommand := by cases i <;> rfl

/-- No tuple is a command, and a CTRL write decodes to its own row (R106, log entry 11). -/
theorem decodeRequest_ok_row {p : Params} {r : Request} (h : decodeRequest p r = .ok i) :
    i.isCommand = false ∧ ∀ v, i ≠ .wr .ctrl v := by
  obtain ⟨space, o, -, rfl⟩ := decodeRequest_eq_ok h
  obtain ⟨hwf, hencode⟩ := encodeOfDecode p (.transaction ⟨space, o, r.access⟩)
  refine ⟨?_, fun v hv => ?_⟩
  · rw [← encode_isCommand, hencode]; rfl
  · rw [hv] at hwf; cases hwf

/-- Only an accepted CTRL write makes an idle engine busy, and CTRL takes its word (R141). -/
theorem Effect.issued_of_idle_of_busy (he : Effect s i t) (hs : s.phase = .idle) (ht : t.phase = .busy) :
    ∃ v, (i = .wrCtrl v ∨ i = .wr .ctrl v) ∧ t.ctrl = v := by
  induction he with
  | issues v hrow => exact ⟨v, hrow, rfl⟩
  | raises | crc | ser | parse => exact absurd ht Phase.idle_ne_busy
  | writesOperand r v => exact absurd (((s.setOperand_phase r v).trans hs).symm.trans ht) Phase.idle_ne_busy
  | answers | draws | drops | writesStatus | writesIer | writesByte => exact absurd (hs.symm.trans ht) Phase.idle_ne_busy

/-- No host transaction makes a busy engine idle (R142). -/
theorem Effect.busy_of_busy (he : Effect s i t) (hi : i.isCommand = false) (hs : s.phase = .busy) : t.phase = .busy := by
  induction he with
  | raises c hcommand => exact absurd (hi.symm.trans hcommand) Bool.false_ne_true
  | crc | ser | parse => exact absurd hi.symm Bool.false_ne_true
  | issues => rfl
  | writesOperand r v => exact (s.setOperand_phase r v).trans hs
  | answers | draws | drops | writesStatus | writesIer | writesByte => exact hs

/-- A step that makes an idle engine busy is an accepted CTRL write (R140, R141). -/
theorem step_idle_to_busy (ht : step s = .next t) (hidle : s.phase = .idle) (hbusy : t.phase = .busy) :
    ∃ r rest v, s.events = .host r :: rest ∧ decodeRequest s.params r = .ok (.wrCtrl v) ∧ t.ctrl = v := by
  rcases step_cases s with
    ⟨r, rest, i, hevents, hdecode, hs⟩ | ⟨r, rest, e, -, -, hs⟩ | ⟨rest, -, hpending, -⟩ | ⟨rest, -, -, hs⟩ | ⟨rest, -, hs⟩
  · obtain ⟨v, rfl | rfl, hctrl⟩ := (Effect.of_exec (hs.symm.trans ht)).issued_of_idle_of_busy hidle hbusy
    · exact ⟨r, rest, v, hevents, hdecode, hctrl⟩
    · exact absurd rfl ((decodeRequest_ok_row hdecode).2 v)
  · cases hs.symm.trans ht; exact absurd (hidle.symm.trans hbusy) Phase.idle_ne_busy
  · exact absurd (hidle.symm.trans hpending) Phase.idle_ne_busy
  · cases hs.symm.trans ht; exact absurd (hidle.symm.trans hbusy) Phase.idle_ne_busy
  · cases hs.symm.trans ht; exact absurd hbusy Phase.idle_ne_busy

/-- A step that makes a busy engine idle is a reset or a completion (R140, R142, R302). -/
theorem step_busy_to_idle (ht : step s = .next t) (hbusy : s.phase = .busy) (hidle : t.phase = .idle) :
    (∃ rest, s.events = .reset :: rest) ∨
      ((s.events = [] ∨ ∃ rest, s.events = .engine :: rest) ∧ t.status.done = true) := by
  rcases step_cases s with
    ⟨r, rest, i, -, hdecode, hs⟩ | ⟨r, rest, e, -, -, hs⟩ | ⟨rest, hevents, -, hs⟩ | ⟨rest, -, hpassed, -⟩ |
      ⟨rest, hevents, -⟩
  · have hkept := (Effect.of_exec (hs.symm.trans ht)).busy_of_busy (decodeRequest_ok_row hdecode).1 hbusy
    exact absurd (hidle.symm.trans hkept) Phase.idle_ne_busy
  · cases hs.symm.trans ht; exact absurd (hidle.symm.trans hbusy) Phase.idle_ne_busy
  · have hdone := ((Effect.of_exec (hs.symm.trans ht)).command_idle_done (decodeCtrl_isCommand _)).2
    exact .inr ⟨hevents.symm.imp And.left fun hengine => ⟨rest, hengine⟩, hdone⟩
  · exact absurd (hpassed.symm.trans hbusy) Phase.idle_ne_busy
  · exact .inl ⟨rest, hevents⟩

/-- A CTRL write leaves a command pending, its own or the one it found (R141). -/
@[simp] theorem State.writeCtrl_phase (s : State) (v : Word) : (s.writeCtrl v).phase = .busy := by
  rcases s.writeCtrl_cases v with ⟨hbusy, he⟩ | ⟨-, he⟩ <;> rw [he]
  · exact hbusy
  · rfl

/-- Settles O44: the two changes of phase, and what the three kinds of step that the statement names leave. -/
theorem phaseLifecycle : Obligations.PhaseLifecycle := by
  refine fun s t ht => ⟨step_idle_to_busy ht, step_busy_to_idle ht, fun r rest v hevents hdecode => ?_,
    fun rest hevents => ?_, fun rest hevents => phase_of_step_of_engineNext (.inl hevents) ht⟩
  · cases (stepRunsDecodedTransaction s r rest _ hevents hdecode).symm.trans ht
    exact State.writeCtrl_phase _ v
  · cases (step_of_reset hevents).symm.trans ht
    rfl

/-! ## A pending command completes (R145) -/

theorem next_ne_refused (t : State) (x : Refusal) : (.next t : Host.Outcome State Fault Refusal) ≠ .refused x := nofun

/-- Every instruction has a meaning. -/
theorem exec_ne_refused (i : Instr) (s : State) (x : Refusal) : exec i s ≠ .refused x := by
  cases i with
  | crc init | ser init | parse init => exact State.complete_ne_refused
  | illegal word => rw [exec_illegal]; exact next_ne_refused _ x
  | wr r v => cases r <;> exact next_ne_refused _ x
  | rb a =>
    show execRb a s ≠ .refused x
    rcases execRb_cases a s with ⟨-, he⟩ | ⟨-, ⟨-, he⟩ | ⟨-, ⟨-, he⟩ | ⟨b, -, he⟩⟩⟩ <;> rw [he]
    case inr.inr.inl => exact nofun
    all_goals exact next_ne_refused _ x
  | wb a w =>
    show execWb a w s ≠ .refused x
    rcases execWb_cases a w s with ⟨-, he⟩ | ⟨-, -, he⟩ | ⟨-, -, he⟩ <;> rw [he] <;> exact next_ne_refused _ x
  | rd | wrCtrl | wrStatus | wrIer | wrOperand | busError => exact next_ne_refused _ x

/-- An instruction answers a next state or stops at an unwritten byte (R303). -/
theorem exec_next_or_unwritten (i : Instr) (s : State) :
    (∃ t, exec i s = .next t) ∨ ∃ x, exec i s = .fault (.unwrittenByte x) := by
  cases h : exec i s with
  | next t => exact .inl ⟨t, rfl⟩
  | fault f => cases f with | unwrittenByte x => exact .inr ⟨x, rfl⟩
  | refused x => exact absurd h (exec_ne_refused i s x)

/-- After `k` steps from `s` a completion has left the engine IDLE, or an unwritten byte was read on the way. -/
def State.completesIn (s : State) (k : Nat) : Prop :=
  (∃ t, Host.Core.run Sys2Proof.core k s = .next t ∧ t.phase = .idle ∧ t.status.done = true) ∨
    ∃ x, Host.Core.run Sys2Proof.core k s = .fault (.unwrittenByte x)

theorem State.completesIn.of_step {k : Nat} (hstep : step s = .next t) (h : t.completesIn k) : s.completesIn (k + 1) := by
  rwa [State.completesIn, run_succ_of_next k hstep]

theorem completesIn_one_of_fault {x : Nat} (hstep : step s = .fault (.unwrittenByte x)) : s.completesIn 1 :=
  .inr ⟨x, run_succ_of_fault 0 hstep⟩

/-- The engine's turn completes a pending command (R142). -/
theorem completesIn_one_of_engineNext (h : s.engineNext rest) (hbusy : s.phase = .busy) : s.completesIn 1 := by
  have hs := step_of_engineNext_busy h hbusy
  rcases exec_next_or_unwritten (decodeCtrl s.ctrl) { s with events := rest } with ⟨t, ht⟩ | ⟨x, hx⟩
  · exact .inl ⟨t, run_succ_of_next 0 (hs.trans ht), (Effect.of_exec ht).command_idle_done (decodeCtrl_isCommand _)⟩
  · exact completesIn_one_of_fault (hs.trans hx)

/-- A host request leaves a pending command pending and uses up one input, unless it reads an unwritten byte. -/
theorem step_host_of_busy {r : Request} (hevents : s.events = .host r :: rest) (hbusy : s.phase = .busy) :
    (∃ t, step s = .next t ∧ t.phase = .busy ∧ t.events = rest) ∨ ∃ x, step s = .fault (.unwrittenByte x) := by
  cases hdecode : decodeRequest s.params r with
  | error e => exact .inl ⟨_, step_of_decodeRequest_error hevents hdecode, hbusy, rfl⟩
  | ok i =>
    have hs := stepRunsDecodedTransaction s r rest i hevents hdecode
    rcases exec_next_or_unwritten i { s with events := rest } with ⟨t, ht⟩ | ⟨x, hx⟩
    · have he : Effect { s with events := rest } i t := Effect.of_exec ht
      exact .inl ⟨t, hs.trans ht, he.busy_of_busy (decodeRequest_ok_row hdecode).1 hbusy, he.params_events.2⟩
    · exact .inr ⟨x, hs.trans hx⟩

/-- By induction on the inputs still to come: each is the engine's turn or a host request, and at the end the engine is next. -/
theorem exists_completesIn (es : List Event) : ∀ {s : State}, s.events = es → s.phase = .busy → (∀ e ∈ es, e ≠ .reset) →
    ∃ k, k ≤ es.length + 1 ∧ s.completesIn k := by
  induction es with
  | nil => exact fun hevents hbusy _ => ⟨1, le_rfl, completesIn_one_of_engineNext (.inr ⟨hevents, rfl⟩) hbusy⟩
  | cons e rest ih =>
    intro s hevents hbusy hnoreset
    cases e with
    | engine => exact ⟨1, Nat.le_add_left 1 _, completesIn_one_of_engineNext (.inl hevents) hbusy⟩
    | reset => exact absurd rfl (hnoreset .reset List.mem_cons_self)
    | host r =>
      rcases step_host_of_busy hevents hbusy with ⟨t, hs, htbusy, htevents⟩ | ⟨x, hs⟩
      · obtain ⟨k, hk, hcompletes⟩ := ih htevents htbusy fun e he => hnoreset e (List.mem_cons_of_mem _ he)
        exact ⟨k + 1, Nat.succ_le_succ hk, hcompletes.of_step hs⟩
      · exact ⟨1, Nat.le_add_left 1 _, completesIn_one_of_fault hs⟩

/-- Settles O46: `exists_completesIn` for the inputs of the state. -/
theorem pendingCommandCompletes : Obligations.PendingCommandCompletes :=
  fun s hbusy hnoreset => exists_completesIn s.events rfl hbusy hnoreset

end Sys2Proof.Machine
end
